-- ==== Sys2Proof/Word.lean ====
section
/-! DEFINITION. Word.lean: the two widths of the block. Every data item on the wire and in the FIFO is one byte; the CRC
register, a command word and a response VALUE are 16 bits (spec/00_scope.md R8). All values are unsigned (R11). -/

namespace Sys2Proof

/-- One byte, bits `[7:0]` (R8, R11). -/
abbrev Byte := BitVec 8

/-- One 16-bit word, bits `[15:0]`: a command word, a CRC value or a response VALUE (R8, R11). -/
abbrev Word := BitVec 16

end Sys2Proof
end

