-- ==== Sys2Proof/Syntax.lean ====
section
/-! DEFINITION. Syntax.lean: the fourteen commands of STXETX-CMD v1 (spec/30_encoding.md R60), their formats (R59), and the
assembler's lines (R69, R70). -/

namespace Sys2Proof

/-- A command of the block, with its byte operand where it has one (R60, R68). -/
inductive Instr
  /-- begin a new CRC computation (spec/40_crc.md R80) -/
  | crcInit
  /-- process one byte (R81) -/
  | crcUpdate (d : Byte)
  /-- read the CRC register (R82) -/
  | crcRead
  /-- open a frame (spec/41_encoder.md R96) -/
  | encStart
  /-- emit one payload byte (R97) -/
  | encData (d : Byte)
  /-- emit the CRC and close the frame (R98) -/
  | encEnd
  /-- feed one received byte to the parser (spec/42_parser.md R115) -/
  | parPush (d : Byte)
  /-- clear the assembly buffer and wait for STX (R116) -/
  | parReset
  /-- enqueue one byte (spec/43_fifo.md R131) -/
  | fifoPush (d : Byte)
  /-- dequeue one byte (R132) -/
  | fifoPop
  /-- is the queue empty? (R133) -/
  | fifoEmpty
  /-- is the queue full? (R134) -/
  | fifoFull
  /-- how many bytes are held? (R135) -/
  | fifoSize
  /-- the capacity (R136) -/
  | fifoCapacity
deriving DecidableEq, Repr

/-- The names of the opcode map, one per row (R60). -/
inductive Mnemonic
  | crcInit | crcUpdate | crcRead
  | encStart | encData | encEnd
  | parPush | parReset
  | fifoPush | fifoPop | fifoEmpty | fifoFull | fifoSize | fifoCapacity
deriving DecidableEq, Repr

/-- The two formats of a command word (R59): `B` carries a byte operand, `Z` carries none. -/
inductive Format
  | B | Z
deriving DecidableEq, Repr

/-- The four units, which `UNIT = CMD[15:12]` selects (R58; spec/00_scope.md R1). -/
inductive BlockUnit
  | crc | encoder | parser | fifo
deriving DecidableEq, Repr

/-- The row a command belongs to (R60). -/
def Instr.mnemonic : Instr → Mnemonic
  | .crcInit => .crcInit
  | .crcUpdate _ => .crcUpdate
  | .crcRead => .crcRead
  | .encStart => .encStart
  | .encData _ => .encData
  | .encEnd => .encEnd
  | .parPush _ => .parPush
  | .parReset => .parReset
  | .fifoPush _ => .fifoPush
  | .fifoPop => .fifoPop
  | .fifoEmpty => .fifoEmpty
  | .fifoFull => .fifoFull
  | .fifoSize => .fifoSize
  | .fifoCapacity => .fifoCapacity

/-- The byte operand `D`, where the command has one (R68). -/
def Instr.operand : Instr → Option Byte
  | .crcUpdate d | .encData d | .parPush d | .fifoPush d => some d
  | .crcInit | .crcRead | .encStart | .encEnd | .parReset | .fifoPop | .fifoEmpty | .fifoFull | .fifoSize
  | .fifoCapacity => none

/-- The format of each row of the opcode map (R60). -/
def Mnemonic.format : Mnemonic → Format
  | .crcUpdate | .encData | .parPush | .fifoPush => .B
  | .crcInit | .crcRead | .encStart | .encEnd | .parReset | .fifoPop | .fifoEmpty | .fifoFull | .fifoSize
  | .fifoCapacity => .Z

/-- The unit a row belongs to (R58, R60). -/
def Mnemonic.unit : Mnemonic → BlockUnit
  | .crcInit | .crcUpdate | .crcRead => .crc
  | .encStart | .encData | .encEnd => .encoder
  | .parPush | .parReset => .parser
  | .fifoPush | .fifoPop | .fifoEmpty | .fifoFull | .fifoSize | .fifoCapacity => .fifo

/-- The unit a command belongs to. -/
def Instr.unit (i : Instr) : BlockUnit := i.mnemonic.unit

/-- The fourteen rows, in the order of R60. -/
def Mnemonic.all : List Mnemonic :=
  [.crcInit, .crcUpdate, .crcRead, .encStart, .encData, .encEnd, .parPush, .parReset,
   .fifoPush, .fifoPop, .fifoEmpty, .fifoFull, .fifoSize, .fifoCapacity]

/-- The first word of an assembler line: a command of R60 or a pseudo-command of R70. -/
inductive AsmOp
  | command (m : Mnemonic)
  /-- `CRC_BLOCK b0, ..., bn-1` -/
  | crcBlock
  /-- `ENC_FRAME p0, ..., pn-1` -/
  | encFrame
  /-- `PAR_FEED b0, ..., bn-1` -/
  | parFeed
  /-- `FIFO_FILL b0, ..., bn-1` -/
  | fifoFill
deriving DecidableEq, Repr

/-- An assembler line with its operands as written, before any check (R69, R70). -/
structure AsmLine where
  op : AsmOp
  operands : List Nat
deriving DecidableEq, Repr

end Sys2Proof
end

