-- ==== Sys2Proof/Config.lean ====
section
/-! DEFINITION. Config.lean: the two construction parameters of the block, the values they have in the machine that
`State.reset` builds, and the one free value of the model. -/

namespace Sys2Proof

/-- What is fixed when the block is constructed and never changes (spec/00_scope.md R6, R7; spec/10_state.md R34, R38). -/
structure Params where
  /-- `FIFO_N`, the capacity of the FIFO in bytes; legal values are 1 to 65535 (R6). -/
  fifoN : Nat
  /-- `PARSER_BUF_MAX`, the capacity of the parser's assembly buffer; `none` is `UNBOUNDED`, a finite value is at least 2 (R7). -/
  parBufMax : Option Nat
deriving DecidableEq, Repr

/-- The parameters of the machine that `State.reset` builds: the spec's own test machine, `FIFO_N = 4` and
`PARSER_BUF_MAX = UNBOUNDED` (spec/95_test_vectors.md, Notation).
DESIGN CHOICE (log 1), unsafe for a claim about `State.reset` alone: R6 and R7 leave both open. Every step reads the
parameters from the state, so a statement about all states holds for all parameters. -/
def Config.params : Params := { fifoN := 4, parBufMax := none }

/-- What FIFO cell `index` holds after reset number `resets` until a push writes it: any byte (spec/10_state.md R37;
spec/93_implementation_defined.md I3). A free value: it has no body, so nothing can be proved of it (log 2). -/
opaque Config.unwrittenCell (resets index : Nat) : Byte

end Sys2Proof
end

