-- ==== Sys2Proof/WellFormed.lean ====
section
/-! DEFINITION. WellFormed.lean: the checks on what comes from outside the block: a command, the construction parameters, and
an assembler line. -/

namespace Sys2Proof

/-- A row of the opcode map and an operand make a command when there is an operand exactly if the row is of format B
(spec/30_encoding.md R59, R60). The operand itself is any byte. -/
def Mnemonic.takes (m : Mnemonic) (operand : Option Byte) : Bool :=
  match m.format with
  | .B => operand.isSome
  | .Z => operand.isNone

/-- A command is well-formed when its row takes its operand (R59, R60). -/
def Instr.wellFormed (i : Instr) : Bool := i.mnemonic.takes i.operand

/-- The legal construction parameters: `1 <= FIFO_N <= 65535`, and `PARSER_BUF_MAX` is `UNBOUNDED` or at least 2
(spec/00_scope.md R6, R7). -/
def Params.wellFormed (p : Params) : Bool :=
  decide (1 ≤ p.fifoN) && decide (p.fifoN ≤ 65535) && p.parBufMax.all fun m => decide (2 ≤ m)

/-- An assembler line is well-formed when a format-B command has one operand, a format-Z command none, a pseudo-command any
number, and every operand is `0..255` (R69, R70). -/
def AsmLine.wellFormed (l : AsmLine) : Bool :=
  (l.operands.all fun n => decide (n ≤ 255)) &&
    match l.op with
    | .command m => l.operands.length == (match m.format with | .B => 1 | .Z => 0)
    | .crcBlock | .encFrame | .parFeed | .fifoFill => true

end Sys2Proof
end

