-- ==== Sys2Proof/Decode.lean ====
section
/-! DEFINITION. Decode.lean: from command words to commands and back. The decoder is the opcode map of spec/30_encoding.md R60
read row by row (R61), total on all words, with a named reason for an illegal word (R62); the encoder is the assembler's
`match or D` (R69). -/

namespace Sys2Proof

/-- The byte operand `D = CMD[7:0]`, used unchanged (R58, R68). -/
def operandD (w : Word) : Byte := w.extractLsb' 0 8

/-- The field `OP = CMD[11:8]` (R58). -/
def fieldOp (w : Word) : BitVec 4 := w.extractLsb' 8 4

/-- The field `UNIT = CMD[15:12]` (R58). -/
def fieldUnit (w : Word) : BitVec 4 := w.extractLsb' 12 4

/-- A row of the opcode map: it selects the words `w` with `(w and mask) = pattern` (R60; the table's column `match`). -/
structure OpcodeRow where
  mnemonic : Mnemonic
  pattern : Word
  mask : Word
deriving DecidableEq, Repr

/-- The opcode map (R60). -/
def opcodeTable : List OpcodeRow :=
  [⟨.crcInit, 0x1000, 0xFFFF⟩, ⟨.crcUpdate, 0x1100, 0xFF00⟩, ⟨.crcRead, 0x1200, 0xFFFF⟩,
   ⟨.encStart, 0x2000, 0xFFFF⟩, ⟨.encData, 0x2100, 0xFF00⟩, ⟨.encEnd, 0x2200, 0xFFFF⟩,
   ⟨.parPush, 0x3000, 0xFF00⟩, ⟨.parReset, 0x3100, 0xFFFF⟩] ++
  [⟨.fifoPush, 0x4000, 0xFF00⟩, ⟨.fifoPop, 0x4100, 0xFFFF⟩, ⟨.fifoEmpty, 0x4200, 0xFFFF⟩,
   ⟨.fifoFull, 0x4300, 0xFFFF⟩, ⟨.fifoSize, 0x4400, 0xFFFF⟩, ⟨.fifoCapacity, 0x4500, 0xFFFF⟩]

/-- Does the row select the word? (R60) -/
def OpcodeRow.selects (r : OpcodeRow) (w : Word) : Bool := (w &&& r.mask) == r.pattern

/-- Why a word matches no row (R62). All illegal words behave identically; the reason is for the reader. -/
inductive IllegalWord
  /-- `UNIT` is `0x0` or `0x5..0xF` -/
  | reservedUnit
  /-- the unit exists and has no operation `OP` -/
  | unassignedOp
  /-- the opcode is of format Z and `CMD[7:0]` is not `0x00` -/
  | nonzeroOperand
deriving DecidableEq, Repr

/-- What a word decodes to (R61). -/
inductive Decoded
  | command (i : Instr)
  | illegal (why : IllegalWord)
deriving DecidableEq, Repr

/-- The command of a row with the operand byte `d`; a format-Z command has no operand (R59, R60). -/
def Mnemonic.instr (d : Byte) : Mnemonic → Instr
  | .crcInit => .crcInit
  | .crcUpdate => .crcUpdate d
  | .crcRead => .crcRead
  | .encStart => .encStart
  | .encData => .encData d
  | .encEnd => .encEnd
  | .parPush => .parPush d
  | .parReset => .parReset
  | .fifoPush => .fifoPush d
  | .fifoPop => .fifoPop
  | .fifoEmpty => .fifoEmpty
  | .fifoFull => .fifoFull
  | .fifoSize => .fifoSize
  | .fifoCapacity => .fifoCapacity

/-- How many operations the unit with this `UNIT` code has, numbered from 0 (R60); `none` for a reserved code (R58, R62). -/
def opsOfUnit (u : BitVec 4) : Option Nat :=
  if u = 0x1 then some 3
  else if u = 0x2 then some 3
  else if u = 0x3 then some 2
  else if u = 0x4 then some 6
  else none

/-- The reason a word is illegal, asked only of words that match no row (R62). -/
def illegalReason (w : Word) : IllegalWord :=
  match opsOfUnit (fieldUnit w) with
  | none => .reservedUnit
  | some n => if n ≤ (fieldOp w).toNat then .unassignedOp else .nonzeroOperand

/-- Decoding, total on all 65536 words (R61). -/
def decode (w : Word) : Decoded :=
  match opcodeTable.find? (fun r => r.selects w) with
  | some r => .command (r.mnemonic.instr (operandD w))
  | none => .illegal (illegalReason w)

/-- The command a word stands for, where it is legal. -/
def legalInstr (w : Word) : Option Instr :=
  match decode w with
  | .command i => some i
  | .illegal _ => none

/-- `UNIT` and `OP` of each row, placed at `CMD[15:12]` and `CMD[11:8]` (R58, R60). Written apart from `opcodeTable`, so
that decoding what was encoded checks the one against the other. -/
def Mnemonic.opcodeWord : Mnemonic → Word
  | .crcInit => 0x1000
  | .crcUpdate => 0x1100
  | .crcRead => 0x1200
  | .encStart => 0x2000
  | .encData => 0x2100
  | .encEnd => 0x2200
  | .parPush => 0x3000
  | .parReset => 0x3100
  | .fifoPush => 0x4000
  | .fifoPop => 0x4100
  | .fifoEmpty => 0x4200
  | .fifoFull => 0x4300
  | .fifoSize => 0x4400
  | .fifoCapacity => 0x4500

/-- The word of a command: `match or D` for format B, `match` for format Z (R69). -/
def encode (i : Instr) : Word :=
  match i.operand with
  | some d => i.mnemonic.opcodeWord ||| d.setWidth 16
  | none => i.mnemonic.opcodeWord

/-- The 16-bit command word whose bits, numbered as the opcode table numbers them, are the low `nbits` bits of `w`, the bits
above being 0. A command word crosses the port whole, so no byte order applies (spec/20_memory.md R44; log 10). -/
def tableWord (nbits w : Nat) : Word := BitVec.ofNat 16 (w % 2 ^ nbits)

/-- What the decoder reads from a word of the opcode table; `none` where the word is illegal. -/
def decodeTableWord (nbits w : Nat) : Option Instr := legalInstr (tableWord nbits w)

end Sys2Proof
end

