-- ==== Sys2Proof/Machine/Operands.lean ====
section
/-! DEFINITION. Machine/Operands.lean: how bytes and words are made of each other (spec/00_scope.md R11, R12;
spec/30_encoding.md R68). The one operand form of a command is the byte `D`, which the decoder takes from `CMD[7:0]`
unchanged. -/

namespace Sys2Proof.Machine

/-- `zext_16(b)` (R12, R68). -/
def zext16 (b : Byte) : Word := b.setWidth 16

/-- `w[15:8]`, the most significant byte (R11). -/
def msbOf (w : Word) : Byte := w.extractLsb' 8 8

/-- `w[7:0]`, the least significant byte (R11). -/
def lsbOf (w : Word) : Byte := w.extractLsb' 0 8

/-- `a * 256 + b`, the word with MSB `a` and LSB `b` (R12; spec/20_memory.md R42). -/
def wordOfBytes (a b : Byte) : Word := zext16 a * 256 + zext16 b

/-- A count as a VALUE: the low 16 bits, which are all of it for every count of a legal FIFO (spec/00_scope.md R6; log 11). -/
def valueOfNat (n : Nat) : Word := BitVec.ofNat 16 n

/-- A condition as a VALUE: 1 or 0 (spec/43_fifo.md R133, R134). -/
def valueOfBool (b : Bool) : Word := if b then 1 else 0

end Sys2Proof.Machine
end

