-- ==== Sys2Proof/Machine/State.lean ====
section
/-! DEFINITION. Machine/State.lean: what the block is made of (spec/10_state.md R20), what reaches it from its two requesters,
and the responses it returned; the reasons a step can stop; the state after reset (R37). -/

namespace Sys2Proof.Machine

/-- The parser's state (R24). The two-bit code 3 is never reached and is left out of the type (log 7). -/
inductive ParState
  | waitStart | inFrame | inEscape
deriving DecidableEq, Repr

/-- The status of a response (spec/30_encoding.md R65); the codes no rule produces are left out (log 7). -/
inductive Status
  | ok | none | frame | overflow | underflow | seqErr | illegal
deriving DecidableEq, Repr

/-- What a command returns: `(STATUS, VALUE, BYTES)`, the element 0 of `BYTES` being the first byte emitted (R64, R66). -/
structure Response where
  status : Status
  value : Word
  bytes : List Byte
deriving DecidableEq, Repr

/-- The two requesters: 0, the producer side, and 1, the consumer side (spec/00_scope.md R15; spec/60_exceptions.md R166). -/
inductive Requester
  | producer | consumer
deriving DecidableEq, Repr

/-- One choice of the block's order (spec/20_memory.md R47, R48; spec/70_reset_and_hazards.md R175). -/
inductive Turn
  /-- the outstanding command of this requester is executed next -/
  | serve (k : Requester)
  /-- a reset is next; a flag says that the requester's command was outstanding when the reset arrived and is discarded with
  no effect (R175; a command that completed first has its own turn before the reset) -/
  | reset (discardProducer discardConsumer : Bool)
deriving DecidableEq, Repr

/-- One element of the block's total order: a command of a requester, or a reset (R52, R189). -/
inductive Element
  | command (k : Requester) (w : Word)
  | reset
deriving DecidableEq, Repr

/-- The FIFO storage `fifo_mem` (R26): the cells a push has written since reset, as (index, byte) pairs with the indices
strictly rising. A cell that is not listed holds no value of the model's choosing (log 2), so no byte has to be left out to
keep the list canonical. -/
abbrev Memory := List Host.Cell

/-- Why a step stops. No command stops on every path, and no run from a state that meets the invariants of R30 meets
`noSuchCell`. -/
inductive Fault
  /-- Raised by `step` when the block's order holds no further element: the run is over (R189). Safe: the hardware waits for
  its requesters, and the model only stops there (log 6). -/
  | orderExhausted
  /-- Raised by `step` when the order names a requester that has no command outstanding: "a run is stuck only where a
  requester stops issuing commands" (spec/70_reset_and_hazards.md R188). Safe: the hardware waits (log 6). -/
  | requesterSilent
  /-- Raised by `FIFO_PUSH` and `FIFO_POP` where `fifo_head` or `fifo_tail` is not an index below `FIFO_N`: there is no such
  cell (R26; spec/20_memory.md R40). Safe: R20 and R30 rule such states out (log 3). -/
  | noSuchCell
deriving DecidableEq, Repr

/-- Why an instruction has no meaning in the model. -/
inductive Refusal
  /-- Raised by `exec` for an instruction that has no meaning yet; no arm of this model raises it. Safe: the model stops. -/
  | notModelled (mnemonic : String)
deriving DecidableEq, Repr

/-- The state of the block (R20), with the parameters it was built with (R38), what its requesters have still to ask of it, and
what it has answered. -/
structure State where
  /-- `crc_reg`, the CRC unit's register (R21) -/
  crcReg : Word
  /-- `enc_active`, a frame is open (R22) -/
  encActive : Bool
  /-- `enc_crc`, the running CRC of the open frame's raw payload (R23) -/
  encCrc : Word
  /-- `par_state` (R24) -/
  parState : ParState
  /-- `par_buf`, the assembly buffer (R25) -/
  parBuf : List Byte
  /-- `fifo_mem` (R26) -/
  fifoMem : Memory
  /-- `fifo_head`, the write index (R27) -/
  fifoHead : Nat
  /-- `fifo_tail`, the read index (R28) -/
  fifoTail : Nat
  /-- `fifo_count` (R29) -/
  fifoCount : Nat
  /-- the construction parameters, which nothing writes (R34, R38; the model's own field, log 1) -/
  params : Params
  /-- the commands requester 0 has not had executed, in the order it issues them, the head being the outstanding one (R48; the
  model's own field, log 4) -/
  req0 : List Word
  /-- the same of requester 1 (R48; the model's own field, log 4) -/
  req1 : List Word
  /-- the block's order still to come (R47, R48, R175; the model's own field, log 4) -/
  turns : List Turn
  /-- the response of the command just executed; `none` before the first one and after a reset (R64, R175; the model's own field,
  log 5) -/
  rsp : Option Response
  /-- the responses returned so far, each with the requester it went to, oldest first (R64, R155, R189; the model's own field,
  log 5) -/
  responses : List (Requester × Response)
  /-- how many resets there were: what the free value of an unwritten cell is drawn from (R37; the model's own field, log 2) -/
  resets : Nat
deriving DecidableEq, Repr

/-- The block right after reset, built with the parameters `p` (R37): no command issued, nothing answered. -/
def State.afterReset (p : Params) : State :=
  { crcReg := 0xFFFF
    encActive := false
    encCrc := 0xFFFF
    parState := .waitStart
    parBuf := []
    fifoMem := []
    fifoHead := 0
    fifoTail := 0
    fifoCount := 0
    params := p
    req0 := []
    req1 := []
    turns := []
    rsp := none
    responses := []
    resets := 0 }

/-- The machine right after reset (R37), with the parameters of `Config.params` (log 1). -/
def State.reset : State := State.afterReset Config.params

end Sys2Proof.Machine
end

