-- ==== Sys2Proof/Machine/Ops.lean ====
section
/-! DEFINITION. Machine/Ops.lean: the operations the meanings share: reading and writing a FIFO cell, ending a command with a
response, raising an error, resetting the block, and handing a response to its requester. -/

namespace Sys2Proof.Machine

/-- What executing a command, or a step, ends in. -/
abbrev Result := Host.Outcome State Fault Refusal

/-- The byte a push wrote to the cell; `none` if no push has written it since reset (spec/43_fifo.md R140). -/
def Memory.read? : Memory → Nat → Option Byte
  | [], _ => none
  | (j, v) :: m, i => if i = j then some v else Memory.read? m i

/-- `MemWrite(FIFO, i, v)` on the listed cells, the indices kept strictly rising (spec/00_scope.md R14). -/
def Memory.write : Memory → Nat → Byte → Memory
  | [], i, v => [(i, v)]
  | (j, u) :: m, i, v =>
    if i < j then (i, v) :: (j, u) :: m
    else if i = j then (i, v) :: m
    else (j, u) :: Memory.write m i v

/-- Every listed index is at least `n`, and they rise strictly. -/
def Memory.risingFrom : Nat → Memory → Bool
  | _, [] => true
  | n, (j, _) :: m => decide (n ≤ j) && Memory.risingFrom (j + 1) m

/-- The canonical form of the storage: the listed indices rise strictly. -/
def Memory.wf (m : Memory) : Bool := Memory.risingFrom 0 m

/-- What a cell holds: the byte last written to it, or, where no push has written it since reset, any byte
(spec/10_state.md R37; log 2). -/
def State.cell (s : State) (i : Nat) : Byte :=
  (s.fifoMem.read? i).getD (Config.unwrittenCell s.resets i)

/-- `respond(status, value, bytes)`: end the command and return the response (spec/00_scope.md R14). -/
def State.respond (s : State) (st : Status) (value : Word) (bytes : List Byte) : Result :=
  .next { s with rsp := some { status := st, value := value, bytes := bytes } }

/-- The four errors (spec/60_exceptions.md R156). -/
inductive Error
  | overflow | underflow | seqErr | illegal
deriving DecidableEq, Repr

/-- The status that reports an error (R156). -/
def Error.status : Error → Status
  | .overflow => .overflow
  | .underflow => .underflow
  | .seqErr => .seqErr
  | .illegal => .illegal

/-- `raise <Error>`: the block's only exception. It ends the command with the error's status, VALUE 0 and no BYTES, and writes
no state; nothing is saved, no control is transferred and there is no return from it (R155, R157, R159, R162). -/
def State.raise (s : State) (e : Error) : Result := s.respond e.status 0 []

/-- The four-bit code of each status (spec/30_encoding.md R65). -/
def Status.code : Status → BitVec 4
  | .ok => 0x0
  | .none => 0x1
  | .frame => 0x2
  | .overflow => 0x8
  | .underflow => 0x9
  | .seqErr => 0xA
  | .illegal => 0xF

/-- Is the status one of the four errors? (R65, R156) -/
def Status.isError : Status → Bool
  | .overflow | .underflow | .seqErr | .illegal => true
  | .ok | .none | .frame => false

/-- The two-bit code of the parser's state (spec/10_state.md R24). -/
def ParState.code : ParState → BitVec 2
  | .waitStart => 0
  | .inFrame => 1
  | .inEscape => 2

/-- A block-wide reset: every field of R20 at its reset value of R37, the FIFO's cells unspecified anew, the parameters kept and
no response returned (spec/70_reset_and_hazards.md R175, R176). What the requesters still have to issue and what was
already answered is outside the block and stays. -/
def State.blockReset (s : State) : State :=
  { State.afterReset s.params with
    req0 := s.req0
    req1 := s.req1
    turns := s.turns
    responses := s.responses
    resets := s.resets + 1 }

/-- Hand the response of the command just executed to the requester that issued it, and to nobody else (R64, R155). -/
def State.deliver (k : Requester) (s : State) : State :=
  match s.rsp with
  | some r => { s with responses := s.responses ++ [(k, r)] }
  | none => s

/-- The same on what a command ended in. -/
def Result.deliver (k : Requester) : Result → Result
  | .next t => .next (t.deliver k)
  | .fault f => .fault f
  | .refused r => .refused r

end Sys2Proof.Machine
end

