-- ==== Sys2Proof/Machine/Crc.lean ====
section
/-! DEFINITION. Machine/Crc.lean: the CRC function (spec/40_crc.md R75, R76) and the commands of the CRC unit (R80 to R82). -/

namespace Sys2Proof.Machine

/-- `CRC_POLY` (spec/00_scope.md R10). -/
def crcPoly : Word := 0x1021

/-- `CRC_INIT`, the initial value of the register (R10). -/
def crcInitValue : Word := 0xFFFF

/-- One bit of the byte step: shift left, and XOR with the polynomial if the top bit was set (R75). -/
def crcBit (r : Word) : Word :=
  if r.getLsbD 15 then (r <<< 1) ^^^ crcPoly else r <<< 1

/-- `n` bits of the byte step. -/
def crcBits : Nat → Word → Word
  | 0, r => r
  | n + 1, r => crcBits n (crcBit r)

/-- The byte step `crc_step(r, b)`: the byte enters at bits `[15:8]`, then eight bit steps (R75; spec/20_memory.md R43). -/
def crcStep (r : Word) (b : Byte) : Word := crcBits 8 (r ^^^ (zext16 b <<< 8))

/-- `computeCRC16(s)`: the byte step folded over the sequence from the initial value (R76). -/
def computeCRC16 (s : List Byte) : Word := s.foldl crcStep crcInitValue

/-- `CRC_INIT` (R80). -/
def execCrcInit (s : State) : Result :=
  { s with crcReg := crcInitValue }.respond .ok 0 []

/-- `CRC_UPDATE D` (R81). -/
def execCrcUpdate (d : Byte) (s : State) : Result :=
  let r := crcStep s.crcReg d
  { s with crcReg := r }.respond .ok r []

/-- `CRC_READ` (R82). -/
def execCrcRead (s : State) : Result :=
  s.respond .ok s.crcReg []

end Sys2Proof.Machine
end

