-- ==== Sys2Proof/Machine/Encoder.lean ====
section
/-! DEFINITION. Machine/Encoder.lean: the escaping rule and the frame (spec/41_encoder.md R90, R91), and the commands of the
encoder unit (R96 to R98). -/

namespace Sys2Proof.Machine

/-- The start-of-frame marker (spec/00_scope.md R9). -/
def stx : Byte := 0x02

/-- The end-of-frame marker (R9). -/
def etx : Byte := 0x03

/-- The escape byte (R9). -/
def esc : Byte := 0x1B

/-- The constant of the escape transform (R9). -/
def escXor : Byte := 0x20

/-- Is the byte one of the three reserved control bytes? (R9) -/
def isReserved (b : Byte) : Bool := b == stx || b == etx || b == esc

/-- `escape(b)` (R90). -/
def escape (b : Byte) : List Byte := if isReserved b then [esc, b ^^^ escXor] else [b]

/-- The end of a frame whose CRC is `c`: the escaped MSB, the escaped LSB, ETX (R91; spec/20_memory.md R42). -/
def frameTail (c : Word) : List Byte := escape (msbOf c) ++ escape (lsbOf c) ++ [etx]

/-- The frame of a payload, `encode(p)`: STX, the escaped payload, the escaped CRC of the raw payload, ETX (R91). -/
def encodeFrame (p : List Byte) : List Byte := [stx] ++ p.flatMap escape ++ frameTail (computeCRC16 p)

/-- `ENC_START` (R96). -/
def execEncStart (s : State) : Result :=
  if s.encActive then s.raise .seqErr
  else { s with encActive := true, encCrc := crcInitValue }.respond .ok 0 [stx]

/-- `ENC_DATA D`; the CRC is over the raw byte (R97). -/
def execEncData (d : Byte) (s : State) : Result :=
  if s.encActive then { s with encCrc := crcStep s.encCrc d }.respond .ok 0 (escape d)
  else s.raise .seqErr

/-- `ENC_END`; `enc_crc` keeps its value and VALUE returns it (R98). -/
def execEncEnd (s : State) : Result :=
  if s.encActive then { s with encActive := false }.respond .ok s.encCrc (frameTail s.encCrc)
  else s.raise .seqErr

end Sys2Proof.Machine
end

