-- ==== Sys2Proof/Machine/Flags.lean ====
section
/-! DEFINITION. Machine/Flags.lean: the block stores no flag bits. The FIFO's two conditions are functions of `fifo_count`
(spec/10_state.md R33), and no command writes them. -/

namespace Sys2Proof.Machine

/-- `empty ⟺ count = 0` (R33). -/
def State.fifoIsEmpty (s : State) : Bool := s.fifoCount == 0

/-- `full ⟺ count = N` (R33). -/
def State.fifoIsFull (s : State) : Bool := s.fifoCount == s.params.fifoN

end Sys2Proof.Machine
end

