-- ==== Sys2Proof/Machine/Fifo.lean ====
section
/-! DEFINITION. Machine/Fifo.lean: the circular index (spec/43_fifo.md R130), the commands of the FIFO unit (R131 to R136) and the
one storage cell that each of them touches (R141). -/

namespace Sys2Proof.Machine

/-- `advance(i) = (i + 1) mod FIFO_N` (R130). -/
def State.advance (s : State) (i : Nat) : Nat := (i + 1) % s.params.fifoN

/-- `FIFO_PUSH D` (R131). An index that is no cell faults (log 3). -/
def execFifoPush (d : Byte) (s : State) : Result :=
  if s.fifoIsFull then s.raise .overflow
  else if s.fifoHead < s.params.fifoN then
    { s with
      fifoMem := s.fifoMem.write s.fifoHead d
      fifoHead := s.advance s.fifoHead
      fifoCount := s.fifoCount + 1 }.respond .ok 0 []
  else .fault .noSuchCell

/-- `FIFO_POP` (R132); the cell is not cleared (R140). An index that is no cell faults (log 3). -/
def execFifoPop (s : State) : Result :=
  if s.fifoIsEmpty then s.raise .underflow
  else if s.fifoTail < s.params.fifoN then
    { s with
      fifoTail := s.advance s.fifoTail
      fifoCount := s.fifoCount - 1 }.respond .ok (zext16 (s.cell s.fifoTail)) []
  else .fault .noSuchCell

/-- `FIFO_EMPTY` (R133). -/
def execFifoEmpty (s : State) : Result := s.respond .ok (valueOfBool s.fifoIsEmpty) []

/-- `FIFO_FULL` (R134). -/
def execFifoFull (s : State) : Result := s.respond .ok (valueOfBool s.fifoIsFull) []

/-- `FIFO_SIZE` (R135). -/
def execFifoSize (s : State) : Result := s.respond .ok (valueOfNat s.fifoCount) []

/-- `FIFO_CAPACITY` (R136). -/
def execFifoCapacity (s : State) : Result := s.respond .ok (valueOfNat s.params.fifoN) []

/-- The one storage cell that a command touches in this state, if any (R141): a push that succeeds writes the cell at
`fifo_head`, a pop that succeeds reads the cell at `fifo_tail`; a push or a pop that fails, an observer and a command of another
unit touch none. -/
def State.touchedCell (s : State) : Instr → Option Nat
  | .fifoPush _ => if s.fifoIsFull then none else some s.fifoHead
  | .fifoPop => if s.fifoIsEmpty then none else some s.fifoTail
  | .fifoEmpty | .fifoFull | .fifoSize | .fifoCapacity => none
  | .crcInit | .crcUpdate _ | .crcRead => none
  | .encStart | .encData _ | .encEnd => none
  | .parPush _ | .parReset => none

end Sys2Proof.Machine
end

