-- ==== Sys2Proof/Machine/Parser.lean ====
section
/-! DEFINITION. Machine/Parser.lean: the three-state byte step of the parser (spec/42_parser.md R105 to R114) and the commands of
the parser unit (R115, R116). -/

namespace Sys2Proof.Machine

/-- What one byte does: the state after it, and the status and BYTES it returns (R105). -/
abbrev ParseResult := State × Status × List Byte

/-- `abandon(S)`: a frame too long for a finite buffer is dropped silently (R114). -/
def parAbandon (s : State) : ParseResult :=
  ({ s with parBuf := [], parState := .waitStart }, .none, [])

/-- `append(S, v)`: add one de-escaped byte, or abandon the frame where a finite buffer is full (R113). -/
def parAppend (s : State) (v : Byte) : ParseResult :=
  if s.params.parBufMax = some s.parBuf.length then parAbandon s
  else ({ s with parBuf := s.parBuf ++ [v], parState := .inFrame }, .none, [])

/-- All but the last two buffered bytes, the candidate payload (R110; `buf[0 .. n-2]` under spec/00_scope.md R13). -/
def bodyOf (buf : List Byte) : List Byte := buf.take (buf.length - 2)

/-- The last two buffered bytes as (MSB, LSB); `none` if fewer are held (R110). -/
def receivedCrc (buf : List Byte) : Option Word :=
  match buf.drop (buf.length - 2) with
  | [msb, lsb] => some (wordOfBytes msb lsb)
  | _ => none

/-- The payload an ETX completes, where the buffer's last two bytes are the CRC of the bytes before them (R110). -/
def validPayload (buf : List Byte) : Option (List Byte) :=
  if receivedCrc buf = some (computeCRC16 (bodyOf buf)) then some (bodyOf buf) else none

/-- `finalize(S)`: in both outcomes the buffer is cleared and the state returns to `WaitStart` (R110). -/
def parFinalize (s : State) : ParseResult :=
  let t := { s with parBuf := [], parState := .waitStart }
  match validPayload s.parBuf with
  | some p => (t, .frame, p)
  | none => (t, .none, [])

/-- `parse_step(S, b)` (R105 to R112). -/
def parseStep (s : State) (b : Byte) : ParseResult :=
  match s.parState with
  | .waitStart =>
    if b = stx then ({ s with parBuf := [], parState := .inFrame }, .none, [])
    else (s, .none, [])
  | .inFrame =>
    if b = esc then ({ s with parState := .inEscape }, .none, [])
    else if b = etx then parFinalize s
    else parAppend s b
  | .inEscape => parAppend s (b ^^^ escXor)

/-- `PAR_PUSH D` (R115). -/
def execParPush (d : Byte) (s : State) : Result :=
  let r := parseStep s d
  r.1.respond r.2.1 0 r.2.2

/-- `PAR_RESET` (R116). -/
def execParReset (s : State) : Result :=
  { s with parBuf := [], parState := .waitStart }.respond .ok 0 []

end Sys2Proof.Machine
end

