-- ==== Sys2Proof/Machine/Dispatch.lean ====
section
/-! DEFINITION. Machine/Dispatch.lean: each command calls its meaning. -/

namespace Sys2Proof.Machine

def exec (i : Instr) (s : State) : Host.Outcome State Fault Refusal :=
  match i with
  | .crcInit => Sys2Proof.Machine.execCrcInit s
  | .crcUpdate d => Sys2Proof.Machine.execCrcUpdate d s
  | .crcRead => Sys2Proof.Machine.execCrcRead s
  | .encStart => Sys2Proof.Machine.execEncStart s
  | .encData d => Sys2Proof.Machine.execEncData d s
  | .encEnd => Sys2Proof.Machine.execEncEnd s
  | .parPush d => Sys2Proof.Machine.execParPush d s
  | .parReset => Sys2Proof.Machine.execParReset s
  | .fifoPush d => Sys2Proof.Machine.execFifoPush d s
  | .fifoPop => Sys2Proof.Machine.execFifoPop s
  | .fifoEmpty => Sys2Proof.Machine.execFifoEmpty s
  | .fifoFull => Sys2Proof.Machine.execFifoFull s
  | .fifoSize => Sys2Proof.Machine.execFifoSize s
  | .fifoCapacity => Sys2Proof.Machine.execFifoCapacity s

end Sys2Proof.Machine
end

