-- ==== Sys2Proof/Machine/Requests.lean ====
section
/-! DEFINITION. Machine/Requests.lean: how commands come from the two requesters to the block (spec/20_memory.md R47, R48, R52;
spec/70_reset_and_hazards.md R175). It stands where another machine has its instruction fetch: the block fetches nothing
(spec/10_state.md R32). -/

namespace Sys2Proof.Machine

/-- The commands of a requester that were not executed yet, the outstanding one first (R48). -/
def State.queue (s : State) : Requester → List Word
  | .producer => s.req0
  | .consumer => s.req1

/-- The same state with this queue for the requester. -/
def State.setQueue (s : State) (k : Requester) (q : List Word) : State :=
  match k with
  | .producer => { s with req0 := q }
  | .consumer => { s with req1 := q }

/-- Drop the requester's outstanding command, if it is said to be discarded (R175). -/
def State.discard (s : State) (k : Requester) (lost : Bool) : State :=
  if lost then s.setQueue k (s.queue k).tail else s

/-- What the block's order has next. -/
inductive Next
  /-- this element is executed, on this state -/
  | element (e : Element) (s : State)
  /-- there is none, and why -/
  | stuck (why : Fault)
deriving DecidableEq, Repr

/-- Take the next element of the block's order (R47, R48): the turn is used up, and a served requester's outstanding command
with it; a reset discards the outstanding commands it is said to discard (R175). -/
def State.nextElement (s : State) : Next :=
  match s.turns with
  | [] => .stuck .orderExhausted
  | .reset lost0 lost1 :: ts =>
    .element .reset ((({ s with turns := ts } : State).discard .producer lost0).discard .consumer lost1)
  | .serve k :: ts =>
    match s.queue k with
    | [] => .stuck .requesterSilent
    | w :: ws => .element (.command k w) (({ s with turns := ts } : State).setQueue k ws)

/-- Let requester `k` issue `w` and be served next: its outstanding command is `w`, and the next turn is its own. -/
def State.issueFirst (s : State) (k : Requester) (w : Word) : State :=
  ({ s with turns := .serve k :: s.turns } : State).setQueue k (w :: s.queue k)

/-- Append one element to what is still to come: a command goes to the end of its requester's queue with a turn of its own, a
reset (nothing being outstanding) to the end of the turns. -/
def State.enqueue (s : State) : Element → State
  | .command k w => ({ s with turns := s.turns ++ [.serve k] } : State).setQueue k (s.queue k ++ [w])
  | .reset => { s with turns := s.turns ++ [.reset false false] }

/-- The command as an element of the order. -/
def Element.ofInstr (k : Requester) (i : Instr) : Element := .command k (encode i)

/-- The command an element decodes to, if it is a legal command. -/
def Element.instr? : Element → Option Instr
  | .command _ w => legalInstr w
  | .reset => none

end Sys2Proof.Machine
end

