-- ==== Sys2Proof/Machine/Apply.lean ====
section
/-! DEFINITION. Machine/Apply.lean: what one element of the block's order does (spec/20_memory.md R49, R52). -/

namespace Sys2Proof.Machine

/-- Execute a command word: its command, or `raise ILLEGAL` where it decodes to none, whatever the state (spec/30_encoding.md
R61; spec/60_exceptions.md R158). -/
def State.execWord (s : State) (w : Word) : Result :=
  match decode w with
  | .command i => exec i s
  | .illegal _ => s.raise .illegal

/-- One element of the block's order: a command, whose response goes to its requester, or a reset (R52, R155, R175). -/
def State.apply (s : State) : Element → Result
  | .command k w => (s.execWord w).deliver k
  | .reset => .next s.blockReset

end Sys2Proof.Machine
end

