-- ==== Sys2Proof/Machine/Step.lean ====
section
/-! DEFINITION. Machine/Step.lean: one step of the machine is one element of the block's order (spec/20_memory.md R47, R52). -/

namespace Sys2Proof.Machine

/-- Take the next element of the order and do what it does; with none to take, the run is stuck (R47, R52;
spec/70_reset_and_hazards.md R188). -/
def step (s : State) : Host.Outcome State Fault Refusal :=
  match s.nextElement with
  | .element e s' => s'.apply e
  | .stuck why => .fault why

/-- `s` with the command word of the opcode table issued by requester 0 and served next (log 4, log 10). -/
def State.withFetchWord (s : State) (nbits w : Nat) : State := s.issueFirst .producer (tableWord nbits w)

end Sys2Proof.Machine
end

