-- ==== Sys2Proof/Machine/Assembler.lean ====
section
/-! DEFINITION. Machine/Assembler.lean: the assembler syntax and the pseudo-commands (spec/30_encoding.md R69, R70). Text is a
list of characters. This is notation on the requesters' side; the block sees only the words. -/

namespace Sys2Proof.Machine

/-- The commands a well-formed line stands for: itself, or a pseudo-command's expansion (R69, R70). -/
def asmExpand (l : AsmLine) : List Instr :=
  let bs := l.operands.map (BitVec.ofNat 8)
  match l.op with
  | .command m =>
    match bs with
    | d :: _ => [m.instr d]
    | [] => [m.instr 0]
  | .crcBlock => [.crcInit] ++ bs.map Instr.crcUpdate ++ [.crcRead]
  | .encFrame => [.encStart] ++ bs.map Instr.encData ++ [.encEnd]
  | .parFeed => bs.map Instr.parPush
  | .fifoFill => bs.map Instr.fifoPush

/-- The words of a line; none for a line that is not well-formed (R69). -/
def assembleLine (l : AsmLine) : Option (List Word) :=
  if l.wellFormed then some ((asmExpand l).map encode) else none

/-- The mnemonic in upper case (R60, R69). -/
def mnemonicText : Mnemonic → List Char
  | .crcInit => ['C', 'R', 'C', '_', 'I', 'N', 'I', 'T']
  | .crcUpdate => ['C', 'R', 'C', '_', 'U', 'P', 'D', 'A', 'T', 'E']
  | .crcRead => ['C', 'R', 'C', '_', 'R', 'E', 'A', 'D']
  | .encStart => ['E', 'N', 'C', '_', 'S', 'T', 'A', 'R', 'T']
  | .encData => ['E', 'N', 'C', '_', 'D', 'A', 'T', 'A']
  | .encEnd => ['E', 'N', 'C', '_', 'E', 'N', 'D']
  | .parPush => ['P', 'A', 'R', '_', 'P', 'U', 'S', 'H']
  | .parReset => ['P', 'A', 'R', '_', 'R', 'E', 'S', 'E', 'T']
  | .fifoPush => ['F', 'I', 'F', 'O', '_', 'P', 'U', 'S', 'H']
  | .fifoPop => ['F', 'I', 'F', 'O', '_', 'P', 'O', 'P']
  | .fifoEmpty => ['F', 'I', 'F', 'O', '_', 'E', 'M', 'P', 'T', 'Y']
  | .fifoFull => ['F', 'I', 'F', 'O', '_', 'F', 'U', 'L', 'L']
  | .fifoSize => ['F', 'I', 'F', 'O', '_', 'S', 'I', 'Z', 'E']
  | .fifoCapacity => ['F', 'I', 'F', 'O', '_', 'C', 'A', 'P', 'A', 'C', 'I', 'T', 'Y']

/-- The first word of a line as text (R69, R70). -/
def asmOpText : AsmOp → List Char
  | .command m => mnemonicText m
  | .crcBlock => ['C', 'R', 'C', '_', 'B', 'L', 'O', 'C', 'K']
  | .encFrame => ['E', 'N', 'C', '_', 'F', 'R', 'A', 'M', 'E']
  | .parFeed => ['P', 'A', 'R', '_', 'F', 'E', 'E', 'D']
  | .fifoFill => ['F', 'I', 'F', 'O', '_', 'F', 'I', 'L', 'L']

/-- Every first word of a line. -/
def asmOps : List AsmOp := Mnemonic.all.map AsmOp.command ++ [.crcBlock, .encFrame, .parFeed, .fifoFill]

/-- The value of a hexadecimal digit, in either case (log 12). -/
def hexDigit? (c : Char) : Option Nat :=
  if '0'.toNat ≤ c.toNat ∧ c.toNat ≤ '9'.toNat then some (c.toNat - '0'.toNat)
  else if 'A'.toNat ≤ c.toNat ∧ c.toNat ≤ 'F'.toNat then some (c.toNat - 'A'.toNat + 10)
  else if 'a'.toNat ≤ c.toNat ∧ c.toNat ≤ 'f'.toNat then some (c.toNat - 'a'.toNat + 10)
  else none

/-- A decimal number, digit by digit onto `acc` (R69). Any number of leading zeros is read (`007` is 7): DESIGN CHOICE, R69 says
only "a decimal `0..255`" (log 12). -/
def decimal? : Nat → List Char → Option Nat
  | acc, [] => some acc
  | acc, c :: cs =>
    if '0'.toNat ≤ c.toNat ∧ c.toNat ≤ '9'.toNat then decimal? (10 * acc + (c.toNat - '0'.toNat)) cs else none

/-- An operand: a hex literal `0xHH`, or a decimal number (R69); its range is checked by `AsmLine.wellFormed`. -/
def operandText? : List Char → Option Nat
  | [] => none
  | ['0', 'x', h, l] =>
    match hexDigit? h, hexDigit? l with
    | some a, some b => some (16 * a + b)
    | _, _ => none
  | cs => decimal? 0 cs

/-- Operands separated by commas (R70). -/
def operandList? : List (List Char) → Option (List Nat)
  | [] => some []
  | [t] => (operandText? t).map fun n => [n]
  | t :: sep :: rest =>
    if sep = [','] ∧ rest ≠ [] then
      match operandText? t, operandList? rest with
      | some n, some ns => some (n :: ns)
      | _, _ => none
    else none

/-- A finished token, if it holds anything. -/
def putToken (tok : List Char) (rest : List (List Char)) : List (List Char) :=
  if tok = [] then rest else tok :: rest

/-- The tokens of a line up to its comment, which starts at `;` (R69): blanks separate tokens, a comma is one of its own. -/
def tokens (tok : List Char) : List Char → List (List Char)
  | [] => putToken tok []
  | c :: cs =>
    if c = ';' then putToken tok []
    else if c = ' ' ∨ c = '\t' then putToken tok (tokens [] cs)
    else if c = ',' then putToken tok ([','] :: tokens [] cs)
    else tokens (tok ++ [c]) cs

/-- One line of text: its words, no words for an empty line or one that holds only a comment (DESIGN CHOICE, log 12),
and `none` for a line that is none of the assembler's (R69, R70). -/
def assembleText (line : List Char) : Option (List Word) :=
  match tokens [] line with
  | [] => some []
  | t :: ts =>
    match asmOps.find? (fun o => asmOpText o = t), operandList? ts with
    | some o, some ns => assembleLine { op := o, operands := ns }
    | _, _ => none

/-- The upper-case hexadecimal digit of a number below 16. -/
def hexChar (n : Nat) : Char := if n < 10 then Char.ofNat ('0'.toNat + n) else Char.ofNat ('A'.toNat + (n - 10))

/-- A command written in the assembler's syntax, its operand as `0xHH` (R69). -/
def instrText (i : Instr) : List Char :=
  mnemonicText i.mnemonic ++
    match i.operand with
    | some d => [' ', '0', 'x', hexChar (d.toNat / 16), hexChar (d.toNat % 16)]
    | none => []

end Sys2Proof.Machine
end

