-- ==== Sys2Proof/Safety.lean ====
section
/-! DEFINITION. Safety.lean: the terms in which claims about the block are stated: the invariants of spec/10_state.md R30, what a
unit's state is, what the FIFO holds, runs of the block's order, and what the requesters of the source do. -/

namespace Sys2Proof.Machine

/-- The bytes in the FIFO, oldest first: the cells `(fifo_tail + k) mod FIFO_N` for `k < fifo_count` (R30). -/
def State.fifoContents (s : State) : List Byte :=
  (List.range s.fifoCount).map fun k => s.cell ((s.fifoTail + k) % s.params.fifoN)

/-- The invariants that every rule preserves (R30), with the ranges that R6, R7, R20 and R25 give, and the canonical form of
the storage. -/
structure State.Inv (s : State) : Prop where
  /-- the parameters are legal (R6, R7) -/
  params_legal : s.params.wellFormed = true
  /-- `0 <= fifo_head <= FIFO_N - 1` (R20) -/
  head_lt : s.fifoHead < s.params.fifoN
  /-- `0 <= fifo_tail <= FIFO_N - 1` (R20) -/
  tail_lt : s.fifoTail < s.params.fifoN
  /-- `0 <= fifo_count <= FIFO_N` (R29, R30) -/
  count_le : s.fifoCount ≤ s.params.fifoN
  /-- `fifo_head = (fifo_tail + fifo_count) mod FIFO_N` (R30) -/
  head_eq : s.fifoHead = (s.fifoTail + s.fifoCount) % s.params.fifoN
  /-- the cells that hold the FIFO's bytes were written by a push (R30, R140) -/
  held_written : ∀ k, k < s.fifoCount → (s.fifoMem.read? ((s.fifoTail + k) % s.params.fifoN)).isSome = true
  /-- only cells of the storage are listed (R26) -/
  cells_exist : ∀ i, s.params.fifoN ≤ i → s.fifoMem.read? i = none
  /-- the storage is in canonical form -/
  mem_wf : s.fifoMem.wf = true
  /-- `len(par_buf) = 0` whenever `par_state = WaitStart` (R30) -/
  waiting_empty : s.parState = .waitStart → s.parBuf = []
  /-- `len(par_buf) <= PARSER_BUF_MAX` when that parameter is finite (R30) -/
  buf_bounded : ∀ m, s.params.parBufMax = some m → s.parBuf.length ≤ m

/-- The CRC unit's state is the same (R20, R36). -/
def SameCrc (s t : State) : Prop := t.crcReg = s.crcReg

/-- The encoder unit's state is the same (R20, R36). -/
def SameEncoder (s t : State) : Prop := t.encActive = s.encActive ∧ t.encCrc = s.encCrc

/-- The parser unit's state is the same (R20, R36). -/
def SameParser (s t : State) : Prop := t.parState = s.parState ∧ t.parBuf = s.parBuf

/-- The FIFO unit's registers are the same, and every cell reads as before (R20, R36). -/
def SameFifo (s t : State) : Prop :=
  t.fifoHead = s.fifoHead ∧ t.fifoTail = s.fifoTail ∧ t.fifoCount = s.fifoCount ∧
    ∀ i, t.fifoMem.read? i = s.fifoMem.read? i

/-- Nothing outside the four units changed but the response of the command: the parameters, what the requesters have still to
ask, the order, what was answered before, and the number of resets (R34, R38, R49). -/
def SameSurroundings (s t : State) : Prop :=
  t.params = s.params ∧ t.req0 = s.req0 ∧ t.req1 = s.req1 ∧ t.turns = s.turns ∧ t.responses = s.responses ∧
    t.resets = s.resets

/-- The state of one unit is the same (R20, R36). -/
def SameUnit (u : BlockUnit) (s t : State) : Prop :=
  match u with
  | .crc => SameCrc s t
  | .encoder => SameEncoder s t
  | .parser => SameParser s t
  | .fifo => SameFifo s t

/-- The elements of a run one after the other, each on the state the ones before it leave (spec/20_memory.md R52). -/
def runOrder : List Element → State → Result
  | [], s => .next s
  | e :: es, s =>
    match s.apply e with
    | .next t => runOrder es t
    | .fault f => .fault f
    | .refused r => .refused r

/-- The state with a whole sequence of elements still to come (R52): each command in its requester's queue. -/
def State.enqueueAll (s : State) (es : List Element) : State := es.foldl State.enqueue s

/-- The responses that were returned between `s` and `t`, in the block's order. -/
def responsesSince (s t : State) : List (Requester × Response) := t.responses.drop s.responses.length

/-- A sequence with commands only, no reset in it. -/
def NoReset (es : List Element) : Prop := Element.reset ∉ es

/-- The commands of a reset-free sequence that was run, each with the response it got. -/
def commandsWith (es : List Element) (rs : List (Requester × Response)) : List (Option Instr × Response) :=
  List.zipWith (fun e r => (e.instr?, r.2)) es rs

/-- The bytes the CRC unit was given, in order. -/
def crcBytes (es : List Element) : List Byte :=
  es.filterMap fun e => match e.instr? with | some (.crcUpdate d) => some d | _ => none

/-- The payload bytes the encoder was given, in order. -/
def encBytes (es : List Element) : List Byte :=
  es.filterMap fun e => match e.instr? with | some (.encData d) => some d | _ => none

/-- The bytes the parser was given, in order. -/
def parBytes (es : List Element) : List Byte :=
  es.filterMap fun e => match e.instr? with | some (.parPush d) => some d | _ => none

/-- Is the element a legal command of this unit? -/
def Element.ofUnit (u : BlockUnit) (e : Element) : Bool :=
  match e.instr? with
  | some i => i.unit == u
  | none => false

/-- The commands of one unit in a sequence, in order. -/
def unitInstrs (u : BlockUnit) (es : List Element) : List Instr :=
  es.filterMap fun e => e.instr?.filter fun i => i.unit == u

/-- The responses to the commands of one unit, in order. -/
def unitResponses (u : BlockUnit) (es : List Element) (rs : List (Requester × Response)) : List Response :=
  (commandsWith es rs).filterMap fun p => match p.1 with | some i => if i.unit == u then some p.2 else none | none => none

/-- The bytes of the pushes that succeeded, in order (spec/43_fifo.md R137). -/
def pushedBytes (es : List Element) (rs : List (Requester × Response)) : List Byte :=
  (commandsWith es rs).filterMap fun p =>
    match p.1 with
    | some (.fifoPush d) => if p.2.status == .ok then some d else none
    | _ => none

/-- The bytes of the pops that succeeded, in order (R137). -/
def poppedBytes (es : List Element) (rs : List (Requester × Response)) : List Byte :=
  (commandsWith es rs).filterMap fun p =>
    match p.1 with
    | some .fifoPop => if p.2.status == .ok then some (lsbOf p.2.value) else none
    | _ => none

/-- The payloads of the frames that were delivered, in order (spec/42_parser.md R115). -/
def deliveredPayloads (rs : List Response) : List (List Byte) :=
  rs.filterMap fun r => if r.status == .frame then some r.bytes else none

/-- What the source says its producer does (spec/60_exceptions.md R167): it only pushes, and after an `OVERFLOW` (`stopped`) it
issues nothing more. With the responses the commands got. A premise a claim may make of the environment; the block does not
check it (R163). -/
def producerAsInSource : (stopped : Bool) → List (Element × Response) → Bool
  | _, [] => true
  | stopped, (e, r) :: rest =>
    match e with
    | .command .producer w =>
      match legalInstr w with
      | some (.fifoPush _) => !stopped && producerAsInSource (r.status == .overflow) rest
      | _ => false
    | .command .consumer _ => producerAsInSource stopped rest
    | .reset => false

/-- What the source says its consumer does (R167): it pops, feeds each byte it got to the parser before it pops again (`got` is
the byte it has still to feed), tries again after an `UNDERFLOW`, and may encode outgoing payloads at any time; it ends with
every byte fed. A premise a claim may make of the environment; the block does not check it (R163). -/
def consumerAsInSource : (got : Option Byte) → List (Element × Response) → Bool
  | got, [] => got.isNone
  | got, (e, r) :: rest =>
    match e with
    | .command .producer _ => consumerAsInSource got rest
    | .command .consumer w =>
      match legalInstr w, got with
      | some .fifoPop, none => consumerAsInSource (if r.status == .ok then some (lsbOf r.value) else none) rest
      | some (.parPush d), some b => d == b && consumerAsInSource none rest
      | some .encStart, _ | some (.encData _), _ | some .encEnd, _ => consumerAsInSource got rest
      | _, _ => false
    | .reset => false

/-- Both requesters of a run do what the source says of them (R167). -/
def RequestersAsInSource (es : List Element) (rs : List (Requester × Response)) : Prop :=
  producerAsInSource false (es.zip (rs.map Prod.snd)) = true ∧ consumerAsInSource none (es.zip (rs.map Prod.snd)) = true

end Sys2Proof.Machine
end

