-- ==== Sys2Proof/Certificates/Slice0/Obligations.lean ====
section
/-! DEFINITION. Obligations.lean: what is claimed of the model, rule by rule of spec/. -/

open Sys2Proof Sys2Proof.Machine

/-! ### Encoding (spec/30_encoding.md) -/

/-- One word of each row of the opcode map, written out from `UNIT`, `OP` and `D` of R58 and R60, decodes to its command. -/
def Obligations.SpecWordsDecode : Prop :=
  decode 0b0001_0000_00000000 = .command .crcInit ∧
  decode 0b0001_0001_00110001 = .command (.crcUpdate 0x31) ∧
  decode 0b0001_0010_00000000 = .command .crcRead ∧
  decode 0b0010_0000_00000000 = .command .encStart ∧
  decode 0b0010_0001_00000010 = .command (.encData 0x02) ∧
  decode 0b0010_0010_00000000 = .command .encEnd ∧
  decode 0b0011_0000_00000011 = .command (.parPush 0x03) ∧
  decode 0b0011_0001_00000000 = .command .parReset ∧
  decode 0b0100_0000_01000000 = .command (.fifoPush 0x40) ∧
  decode 0b0100_0001_00000000 = .command .fifoPop ∧
  decode 0b0100_0010_00000000 = .command .fifoEmpty ∧
  decode 0b0100_0011_00000000 = .command .fifoFull ∧
  decode 0b0100_0100_00000000 = .command .fifoSize ∧
  decode 0b0100_0101_00000000 = .command .fifoCapacity

/-- Decoding the word of any well-formed command gives that command back, its operand at every value (R59, R60, R61, R69). -/
def Obligations.DecodeOfEncodeIsTheCommand : Prop :=
  ∀ i : Instr, i.wellFormed = true → decode (encode i) = .command i

/-- A word that decodes to a command is the one word that the encoder writes for it: each command has one word (R60, R63). -/
def Obligations.EncodeOfDecodeIsTheWord : Prop :=
  ∀ (w : Word) (i : Instr), decode w = .command i → encode i = w

/-- At most one row of the opcode map matches any word, and the row that matches is the one the word decodes by, with the
operand `D = w[7:0]` (R60, R61). -/
def Obligations.AtMostOneRowMatchesAWord : Prop :=
  ∀ (w : Word) (r : OpcodeRow), r ∈ opcodeTable → w &&& r.mask = r.pattern →
    decode w = .command (r.mnemonic.instr (BitVec.ofNat 8 (w.toNat % 256))) ∧
    ∀ r' ∈ opcodeTable, w &&& r'.mask = r'.pattern → r' = r

/-- The illegal words are exactly those R62 lists, and all of them behave identically: each is executed as `raise ILLEGAL`. -/
def Obligations.IllegalWordsAreThoseListed : Prop :=
  ∀ w : Word,
    ((∃ why, decode w = .illegal why) ↔
      (w.toNat / 4096 = 0 ∨ 5 ≤ w.toNat / 4096 ∨
       (w.toNat / 4096 = 1 ∧ 3 ≤ w.toNat / 256 % 16) ∨
       (w.toNat / 4096 = 2 ∧ 3 ≤ w.toNat / 256 % 16) ∨
       (w.toNat / 4096 = 3 ∧ 2 ≤ w.toNat / 256 % 16) ∨
       (w.toNat / 4096 = 4 ∧ 6 ≤ w.toNat / 256 % 16) ∨
       (w.toNat / 256 ∈ [0x10, 0x12, 0x20, 0x22, 0x31, 0x41, 0x42, 0x43, 0x44, 0x45] ∧ w.toNat % 256 ≠ 0))) ∧
    (∀ (s : State) why, decode w = .illegal why → s.execWord w = .next { s with rsp := some ⟨.illegal, 0, []⟩ })

/-- A command written in the assembler's syntax assembles to its word (R69). -/
def Obligations.AssembledTextIsTheWord : Prop :=
  ∀ i : Instr, assembleText (instrText i) = some [encode i]

/-! ### The block's order (spec/20_memory.md, spec/70_reset_and_hazards.md) -/

/-- When the order serves requester `k` and its outstanding command decodes to `i`, a step is `exec i` on the state whose turn
and whose outstanding command are used up, and the response goes to `k`. Everything else about a run comes from this. -/
def Obligations.StepRunsTheDecodedCommand : Prop :=
  ∀ (s : State) (k : Requester) (ts : List Turn) (w : Word) (ws : List Word) (i : Instr),
    s.turns = .serve k :: ts → s.queue k = w :: ws → decode w = .command i →
    step s = Result.deliver k (exec i (({ s with turns := ts } : State).setQueue k ws))

/-- An outstanding word that decodes to no command is answered with `ILLEGAL`, VALUE 0 and no BYTES, whatever the state, and
the nine fields of the block stay as they are (R61, R157, R158). -/
def Obligations.IllegalWordIsAnsweredIllegal : Prop :=
  ∀ (s : State) (k : Requester) (ts : List Turn) (w : Word) (ws : List Word) (why : IllegalWord),
    s.turns = .serve k :: ts → s.queue k = w :: ws → decode w = .illegal why →
    step s = .next { ({ s with turns := ts } : State).setQueue k ws with
      rsp := some ⟨.illegal, 0, []⟩
      responses := s.responses ++ [(k, ⟨.illegal, 0, []⟩)] }

/-- A reset sets every field of the block to its reset value, keeps the parameters, returns no response, and discards the
outstanding commands that are said to be discarded; a FIFO cell then holds any byte (R37, R175, R176; which commands are
outstanding at a reset is the model's turn, log 8). -/
def Obligations.ResetSetsEveryField : Prop :=
  ∀ (s : State) (lost0 lost1 : Bool) (ts : List Turn), s.turns = .reset lost0 lost1 :: ts →
    ∃ t, step s = .next t ∧
      t.crcReg = 0xFFFF ∧ t.encActive = false ∧ t.encCrc = 0xFFFF ∧ t.parState = .waitStart ∧ t.parBuf = [] ∧
      t.fifoHead = 0 ∧ t.fifoTail = 0 ∧ t.fifoCount = 0 ∧
      (∀ i, t.cell i = Config.unwrittenCell (s.resets + 1) i) ∧
      t.params = s.params ∧ t.turns = ts ∧ t.rsp = none ∧ t.responses = s.responses ∧
      t.req0 = (if lost0 then s.req0.tail else s.req0) ∧ t.req1 = (if lost1 then s.req1.tail else s.req1)

/-- The state after reset, for any parameters (R37); the cells of the FIFO hold any byte. -/
def Obligations.ResetStateAsListed : Prop :=
  ∀ p : Params,
    (State.afterReset p).crcReg = 0xFFFF ∧ (State.afterReset p).encActive = false ∧
    (State.afterReset p).encCrc = 0xFFFF ∧ (State.afterReset p).parState = .waitStart ∧
    (State.afterReset p).parBuf = [] ∧ (State.afterReset p).fifoHead = 0 ∧ (State.afterReset p).fifoTail = 0 ∧
    (State.afterReset p).fifoCount = 0 ∧ (State.afterReset p).params = p ∧
    (∀ i, (State.afterReset p).cell i = Config.unwrittenCell 0 i) ∧
    State.reset = State.afterReset Config.params

/-- A run is stuck only where the order has nothing to execute: no turn is left, or the requester it names has no command
outstanding (R188; the model's names for it, log 6). -/
def Obligations.StuckOnlyWithoutACommand : Prop :=
  (∀ s : State, s.turns = [] → step s = .fault .orderExhausted) ∧
  (∀ (s : State) (k : Requester) (ts : List Turn), s.turns = .serve k :: ts → s.queue k = [] →
    step s = .fault .requesterSilent) ∧
  (∀ (s : State) (f : Fault), s.Inv → step s = .fault f →
    s.turns = [] ∨ ∃ k ts, s.turns = .serve k :: ts ∧ s.queue k = [])

/-- Commands of one requester are executed in the order it issued them, and when both have a command outstanding either may be
next: serving `k` takes the head of `k`'s queue and leaves the other queue alone, whichever `k` is (R48). -/
def Obligations.EitherRequesterMayBeNext : Prop :=
  ∀ (s : State) (w0 w1 : Word) (ws0 ws1 : List Word), s.Inv → s.req0 = w0 :: ws0 → s.req1 = w1 :: ws1 →
    (∀ ts, s.turns = .serve .producer :: ts → ∃ t r, step s = .next t ∧ t.turns = ts ∧ t.req0 = ws0 ∧ t.req1 = w1 :: ws1 ∧
      t.responses = s.responses ++ [(.producer, r)] ∧ ∃ u, s.execWord w0 = .next u ∧ u.rsp = some r) ∧
    (∀ ts, s.turns = .serve .consumer :: ts → ∃ t r, step s = .next t ∧ t.turns = ts ∧ t.req0 = w0 :: ws0 ∧ t.req1 = ws1 ∧
      t.responses = s.responses ++ [(.consumer, r)] ∧ ∃ u, s.execWord w1 = .next u ∧ u.rsp = some r)

/-- The block's executions are the sequences of commands and resets: running the machine on any such sequence, its commands
waiting in their requesters' queues, does one element a step, each on the state the ones before it leave (R47, R49, R52). -/
def Obligations.RunIsTheBlocksOrder : Prop :=
  ∀ (es : List Element) (s : State), s.turns = [] → s.req0 = [] → s.req1 = [] →
    Host.Core.run Sys2Proof.core es.length (s.enqueueAll es) = runOrder es s

/-- Every command completes and returns exactly one response, to the requester that issued it; a reset returns none (R64,
R155, R175, R188). -/
def Obligations.EveryCommandIsAnsweredOnce : Prop :=
  ∀ (s s' : State), s.Inv →
    (∀ k w, s.nextElement = .element (.command k w) s' →
      ∃ t r, step s = .next t ∧ t.rsp = some r ∧ t.responses = s.responses ++ [(k, r)]) ∧
    (s.nextElement = .element .reset s' → ∃ t, step s = .next t ∧ t.responses = s.responses)

/-- No run of any sequence of commands and resets stops, from a state that meets the invariants (R188, R189). -/
def Obligations.EveryOrderRunsToItsEnd : Prop :=
  ∀ (es : List Element) (s : State), s.Inv → ∃ t, runOrder es s = .next t ∧ t.Inv

/-! ### Invariants and whole-machine rules (spec/10_state.md, spec/60_exceptions.md) -/

/-- Every step keeps the invariants of R30, the ranges of R6, R7 and R20, and the canonical form of the storage. -/
def Obligations.EveryStepKeepsTheInvariants : Prop :=
  ∀ s t : State, s.Inv → step s = .next t → t.Inv

/-- The state after reset meets the invariants, for any legal parameters (R30, R37). -/
def Obligations.ResetMeetsTheInvariants : Prop :=
  ∀ p : Params, p.wellFormed = true → (State.afterReset p).Inv

/-- No command and no reset changes `FIFO_N` or `PARSER_BUF_MAX` (R34, R41, R176). -/
def Obligations.NoStepChangesTheParameters : Prop :=
  ∀ s t : State, step s = .next t → t.params = s.params

/-- A command writes only the state of its own unit, and nothing outside the four units but its response (R36, R100). -/
def Obligations.CommandWritesOnlyItsUnit : Prop :=
  ∀ (i : Instr) (s t : State), exec i s = .next t →
    SameSurroundings s t ∧ ∀ u, u ≠ i.unit → SameUnit u s t

/-- A command reads only the state of its own unit and the parameters: two states that agree there (and, for a FIFO cell no push
wrote, on what the free value is drawn from) give the same response and agree there afterwards (R36, R49, R100). -/
def Obligations.CommandReadsOnlyItsUnit : Prop :=
  ∀ (i : Instr) (s₁ s₂ t₁ : State), s₁.params = s₂.params → s₁.resets = s₂.resets → SameUnit i.unit s₁ s₂ →
    exec i s₁ = .next t₁ → ∃ t₂, exec i s₂ = .next t₂ ∧ t₂.rsp = t₁.rsp ∧ SameUnit i.unit t₁ t₂

/-- An error response is `(code, 0x0000, [])` and the command that raised it makes no state write (R157). -/
def Obligations.ErrorsWriteNothing : Prop :=
  ∀ (w : Word) (s t : State) (r : Response), s.execWord w = .next t → t.rsp = some r → r.status.isError = true →
    r.value = 0 ∧ r.bytes = [] ∧ t = { s with rsp := some r }

/-- The codes of the errors, and when each is reported: exactly `OVERFLOW` of a push on a full FIFO, `UNDERFLOW` of a pop on an empty one, `SEQERR` of
an encoder command out of sequence, and `ILLEGAL` of a word that is no command (R156, R158). -/
def Obligations.ErrorsHaveTheirCauses : Prop :=
  (Error.overflow.status.code = 0x8 ∧ Error.underflow.status.code = 0x9 ∧ Error.seqErr.status.code = 0xA ∧
    Error.illegal.status.code = 0xF) ∧
  ∀ (w : Word) (s t : State) (r : Response), s.execWord w = .next t → t.rsp = some r →
    (r.status = .illegal ↔ ∃ why, decode w = .illegal why) ∧
    (r.status = .overflow ↔ (∃ d, decode w = .command (.fifoPush d)) ∧ s.fifoCount = s.params.fifoN) ∧
    (r.status = .underflow ↔ decode w = .command .fifoPop ∧ s.fifoCount = 0) ∧
    (r.status = .seqErr ↔ (decode w = .command .encStart ∧ s.encActive = true) ∨
      (((∃ d, decode w = .command (.encData d)) ∨ decode w = .command .encEnd) ∧ s.encActive = false))

/-- The codes of the statuses, and which command produces which: `NONE` and `FRAME` come from `PAR_PUSH` alone, which never
returns `OK`; `OK` comes from every other legal command when no error applies (R65). -/
def Obligations.StatusesByCommand : Prop :=
  (Status.ok.code = 0x0 ∧ Status.none.code = 0x1 ∧ Status.frame.code = 0x2 ∧ Status.overflow.code = 0x8 ∧
    Status.underflow.code = 0x9 ∧ Status.seqErr.code = 0xA ∧ Status.illegal.code = 0xF) ∧
  ∀ (i : Instr) (s t : State) (r : Response), exec i s = .next t → t.rsp = some r →
    ((r.status = .none ∨ r.status = .frame) ↔ ∃ d, i = .parPush d) ∧
    (r.status = .ok ↔ (∀ d, i ≠ .parPush d) ∧ r.status.isError = false)

/-- Repeating a command changes nothing, for `CRC_INIT`, `CRC_READ`, `PAR_RESET`, the four FIFO observers, and every command
that returned an error: the second response and the state after it are the first ones (R50). -/
def Obligations.RepetitionChangesNothing : Prop :=
  ∀ (i : Instr) (s t : State), exec i s = .next t →
    (i ∈ [.crcInit, .crcRead, .parReset, .fifoEmpty, .fifoFull, .fifoSize, .fifoCapacity] ∨
      ∃ r, t.rsp = some r ∧ r.status.isError = true) →
    exec i t = .next t

/-! ### CRC unit (spec/40_crc.md) -/

/-- `CRC_INIT`: its encoding, and its effect in every state (R80). -/
def Obligations.CrcInitSetsTheRegister : Prop :=
  decode 0x1000 = .command .crcInit ∧
  (∀ d : Byte, d ≠ 0 → ∃ why, decode (0x1000 ||| d.setWidth 16) = .illegal why) ∧
  ∀ s : State, exec .crcInit s = .next { s with crcReg := 0xFFFF, rsp := some ⟨.ok, 0, []⟩ }

/-- `CRC_UPDATE D`: its encoding, its effect in every state and for every byte, and the rule's values (R81). -/
def Obligations.CrcUpdateStepsTheRegister : Prop :=
  (∀ d : Byte, decode (0x1100 ||| d.setWidth 16) = .command (.crcUpdate d)) ∧
  (∀ (d : Byte) (s : State), exec (.crcUpdate d) s =
    .next { s with crcReg := crcStep s.crcReg d, rsp := some ⟨.ok, crcStep s.crcReg d, []⟩ }) ∧
  crcStep 0xFFFF 0x00 = 0xE1F0 ∧ crcStep 0xFFFF 0xFF = 0xFF00 ∧ crcStep 0x0000 0x00 = 0x0000 ∧
  crcStep 0xFFFF 0x31 = 0xC782

/-- `CRC_READ`: its encoding, and that it returns the register and writes no state (R82). -/
def Obligations.CrcReadReturnsTheRegister : Prop :=
  decode 0x1200 = .command .crcRead ∧
  ∀ s : State, exec .crcRead s = .next { s with rsp := some ⟨.ok, s.crcReg, []⟩ }

/-- The byte step, bit by bit: the byte enters at bits `[15:8]`; then eight times a left shift, with the polynomial XORed in
if the top bit was 1 (R75). -/
def Obligations.CrcStepIsEightShifts : Prop :=
  ∃ bit : Word → Word,
    (∀ r : Word, r.toNat < 0x8000 → (bit r).toNat = 2 * r.toNat) ∧
    (∀ r : Word, 0x8000 ≤ r.toNat → (bit r).toNat = (2 * r.toNat - 0x10000) ^^^ 0x1021) ∧
    ∀ (r : Word) (b : Byte), ∀ x : Word, x.toNat = r.toNat ^^^ (b.toNat * 256) →
      crcStep r b = bit (bit (bit (bit (bit (bit (bit (bit x)))))))

/-- `computeCRC16` is the fold of the byte step from `0xFFFF`: the empty input gives `0xFFFF`, and one more byte at the end
is one more step; the check string gives `0x29B1` (R76, R77, R84). -/
def Obligations.CrcIsTheFoldOfTheStep : Prop :=
  computeCRC16 [] = 0xFFFF ∧
  (∀ (p : List Byte) (b : Byte), computeCRC16 (p ++ [b]) = crcStep (computeCRC16 p) b) ∧
  computeCRC16 [0x31, 0x32, 0x33, 0x34, 0x35, 0x36, 0x37, 0x38, 0x39] = 0x29B1

/-- The byte step is linear over GF(2), and every operation is on exactly 16 bits: a left shift discards bit 15 and inserts 0
at bit 0 (R79). -/
def Obligations.CrcStepIsLinear : Prop :=
  (∀ (r₁ r₂ : Word) (b₁ b₂ : Byte), crcStep (r₁ ^^^ r₂) (b₁ ^^^ b₂) = crcStep r₁ b₁ ^^^ crcStep r₂ b₂) ∧
  crcStep 0x0000 0x00 = 0x0000 ∧
  (∀ r : Word, (r <<< 1).toNat = 2 * r.toNat % 0x10000)

/-- The usual table-driven formulation computes the same byte step, the table's entry `x` being the step of `x` from 0 (R78
admits it only where it is proved equal). -/
def Obligations.CrcTableStepIsEqual : Prop :=
  ∀ (r : Word) (b : Byte), crcStep r b = (r <<< 8) ^^^ crcStep 0 (BitVec.ofNat 8 (r.toNat / 256) ^^^ b)

/-- A payload followed by its own CRC, MSB first, has CRC 0 (R42, R76). -/
def Obligations.PayloadWithItsCrcGivesZero : Prop :=
  ∀ p : List Byte, computeCRC16 (p ++ [msbOf (computeCRC16 p), lsbOf (computeCRC16 p)]) = 0

/-- The streaming law: after a reset or a `CRC_INIT`, the bytes of the `CRC_UPDATE` commands that follow leave their
`computeCRC16` in the register, whichever commands of the other units, of either requester, come between (R83). -/
def Obligations.CrcStreamsOverInterleaving : Prop :=
  ∀ (es : List Element) (s t : State), NoReset es → (∀ e ∈ es, e.instr? ≠ some .crcInit) →
    (∀ k, runOrder (Element.ofInstr k .crcInit :: es) s = .next t → t.crcReg = computeCRC16 (crcBytes es)) ∧
    (runOrder (.reset :: es) s = .next t → t.crcReg = computeCRC16 (crcBytes es))

/-- The pseudo-command `CRC_BLOCK`: the last response of its expansion has `computeCRC16` of its operands as VALUE, where no
other command comes between (R70). -/
def Obligations.CrcBlockReturnsTheCrc : Prop :=
  ∀ (bs : List Byte) (k : Requester) (s t : State),
    runOrder ((asmExpand ⟨.crcBlock, bs.map BitVec.toNat⟩).map (Element.ofInstr k)) s = .next t →
    t.rsp = some ⟨.ok, computeCRC16 bs, []⟩

/-! ### Encoder unit (spec/41_encoder.md) -/

/-- The escaping rule, for every byte (R90). -/
def Obligations.EscapeReplacesTheReservedBytes : Prop :=
  escape 0x02 = [0x1B, 0x22] ∧ escape 0x03 = [0x1B, 0x23] ∧ escape 0x1B = [0x1B, 0x3B] ∧
  ∀ b : Byte, b ≠ 0x02 → b ≠ 0x03 → b ≠ 0x1B → escape b = [b]

/-- `ENC_START`: opens a frame, or `SEQERR` with no state write where one is open; an open frame is closed by `ENC_END` or a reset
only (R96). -/
def Obligations.EncStartOpensAFrame : Prop :=
  decode 0x2000 = .command .encStart ∧
  (∀ s : State, s.encActive = false → exec .encStart s =
    .next { s with encActive := true, encCrc := 0xFFFF, rsp := some ⟨.ok, 0, [0x02]⟩ }) ∧
  (∀ s : State, s.encActive = true → exec .encStart s = .next { s with rsp := some ⟨.seqErr, 0, []⟩ }) ∧
  (∀ (s t : State) (e : Element), s.apply e = .next t → s.encActive = true → t.encActive = false →
    e = .reset ∨ e.instr? = some .encEnd)

/-- `ENC_DATA D`: the CRC over the raw byte, the escaped byte out, or `SEQERR` where no frame is open (R97). -/
def Obligations.EncDataEmitsTheEscapedByte : Prop :=
  (∀ d : Byte, decode (0x2100 ||| d.setWidth 16) = .command (.encData d)) ∧
  (∀ (d : Byte) (s : State), s.encActive = true → exec (.encData d) s =
    .next { s with encCrc := crcStep s.encCrc d, rsp := some ⟨.ok, 0, escape d⟩ }) ∧
  (∀ (d : Byte) (s : State), s.encActive = false → exec (.encData d) s = .next { s with rsp := some ⟨.seqErr, 0, []⟩ })

/-- `ENC_END`: the escaped MSB and LSB of the CRC and ETX, the CRC as VALUE, `enc_crc` kept, or `SEQERR` where no frame is open
(R98). -/
def Obligations.EncEndEmitsTheCrc : Prop :=
  decode 0x2200 = .command .encEnd ∧
  (∀ s : State, s.encActive = true → exec .encEnd s =
    .next { s with
      encActive := false
      rsp := some ⟨.ok, s.encCrc,
        escape (BitVec.ofNat 8 (s.encCrc.toNat / 256)) ++ escape (BitVec.ofNat 8 (s.encCrc.toNat % 256)) ++ [0x03]⟩ }) ∧
  (∀ s : State, s.encActive = false → exec .encEnd s = .next { s with rsp := some ⟨.seqErr, 0, []⟩ })

/-- The length of a frame: four bytes more than the payload and one for every reserved byte of the payload and the CRC, so
between `len(p) + 4` and `2 * len(p) + 6`, which is reached (R92). -/
def Obligations.FrameLengthCountsTheEscapes : Prop :=
  (∀ p : List Byte,
    (encodeFrame p).length = 4 + p.length +
      (p ++ [msbOf (computeCRC16 p), lsbOf (computeCRC16 p)]).countP (fun b => b ∈ [0x02, 0x03, 0x1B]) ∧
    p.length + 4 ≤ (encodeFrame p).length ∧ (encodeFrame p).length ≤ 2 * p.length + 6) ∧
  ∃ p : List Byte, p ≠ [] ∧ (encodeFrame p).length = 2 * p.length + 6

/-- The delimiters occur only as delimiters: in a frame `0x02` only at index 0, `0x03` only at the last index, and `0x1B` only
before `0x22`, `0x23` or `0x3B` (R93). -/
def Obligations.DelimitersOnlyDelimit : Prop :=
  ∀ (p : List Byte) (i : Nat),
    ((encodeFrame p)[i]? = some 0x02 ↔ i = 0) ∧
    ((encodeFrame p)[i]? = some 0x03 ↔ i + 1 = (encodeFrame p).length) ∧
    ((encodeFrame p)[i]? = some 0x1B → (encodeFrame p)[i + 1]? ∈ [some 0x22, some 0x23, some 0x3B])

/-- The streaming law of the encoder: if `ENC_START`, one `ENC_DATA` a payload byte, and `ENC_END` all return `OK`, with no
other encoder command and no reset between, the concatenation of their BYTES is the frame of the payload and the VALUE of
`ENC_END` is its CRC, whichever commands of the other units come between (R99). -/
def Obligations.EncoderStreamsTheFrame : Prop :=
  ∀ (p : List Byte) (k k' : Requester) (mid : List Element) (s t : State),
    NoReset mid → unitInstrs .encoder mid = p.map Instr.encData →
    runOrder (Element.ofInstr k .encStart :: mid ++ [Element.ofInstr k' .encEnd]) s = .next t →
    (∀ r ∈ unitResponses .encoder (Element.ofInstr k .encStart :: mid ++ [Element.ofInstr k' .encEnd]) (responsesSince s t),
      r.status = .ok) →
    (unitResponses .encoder (Element.ofInstr k .encStart :: mid ++ [Element.ofInstr k' .encEnd]) (responsesSince s t)).flatMap
      Response.bytes = encodeFrame p ∧
    ∃ r, t.rsp = some r ∧ r.value = computeCRC16 p

/-! ### Parser unit (spec/42_parser.md) -/

/-- `PAR_PUSH` in `WaitStart`: STX clears the buffer and enters the frame; every other byte is ignored (R106, R107). -/
def Obligations.ParserWaitsForStx : Prop :=
  (∀ d : Byte, decode (0x3000 ||| d.setWidth 16) = .command (.parPush d)) ∧
  (∀ s : State, s.parState = .waitStart → exec (.parPush 0x02) s =
    .next { s with parBuf := [], parState := .inFrame, rsp := some ⟨.none, 0, []⟩ }) ∧
  (∀ (d : Byte) (s : State), s.parState = .waitStart → d ≠ 0x02 → exec (.parPush d) s =
    .next { s with rsp := some ⟨.none, 0, []⟩ })

/-- `PAR_PUSH` of an ESC in `InFrame`: nothing is buffered, and the next state is `InEscape` (R108). -/
def Obligations.ParserEscapes : Prop :=
  ∀ s : State, s.parState = .inFrame → exec (.parPush 0x1B) s =
    .next { s with parState := .inEscape, rsp := some ⟨.none, 0, []⟩ }

/-- `PAR_PUSH` of a data byte: in `InFrame` any byte but ESC and ETX is appended (STX among them), in `InEscape` every byte XOR
`0x20`; the next state is `InFrame`. Where a finite buffer is full, the frame is abandoned silently instead (R111 to R114). -/
def Obligations.ParserAppendsData : Prop :=
  ∀ (d v : Byte) (s : State),
    (s.parState = .inFrame ∧ d ≠ 0x1B ∧ d ≠ 0x03 ∧ v = d) ∨ (s.parState = .inEscape ∧ v = d ^^^ 0x20) →
    (s.params.parBufMax ≠ some s.parBuf.length → exec (.parPush d) s =
      .next { s with parBuf := s.parBuf ++ [v], parState := .inFrame, rsp := some ⟨.none, 0, []⟩ }) ∧
    (s.params.parBufMax = some s.parBuf.length → exec (.parPush d) s =
      .next { s with parBuf := [], parState := .waitStart, rsp := some ⟨.none, 0, []⟩ })

/-- `PAR_PUSH` of an ETX in `InFrame`: with fewer than two bytes buffered, or a last pair that is not the CRC of the bytes before
it, nothing is returned; else the bytes before the pair are the payload, also when there are none. The buffer is cleared and the
state is `WaitStart` in every case (R109, R110, R120, R121). -/
def Obligations.ParserFinalizesOnEtx : Prop :=
  (∀ s : State, s.parState = .inFrame → s.parBuf.length < 2 → exec (.parPush 0x03) s =
    .next { s with parBuf := [], parState := .waitStart, rsp := some ⟨.none, 0, []⟩ }) ∧
  (∀ (s : State) (p : List Byte) (msb lsb : Byte), s.parState = .inFrame → s.parBuf = p ++ [msb, lsb] →
    (msb.toNat * 256 + lsb.toNat = (computeCRC16 p).toNat → exec (.parPush 0x03) s =
      .next { s with parBuf := [], parState := .waitStart, rsp := some ⟨.frame, 0, p⟩ }) ∧
    (msb.toNat * 256 + lsb.toNat ≠ (computeCRC16 p).toNat → exec (.parPush 0x03) s =
      .next { s with parBuf := [], parState := .waitStart, rsp := some ⟨.none, 0, []⟩ }))

/-- `PAR_RESET`: clears the buffer and forces `WaitStart`, in every state (R116). -/
def Obligations.ParResetForcesWaitStart : Prop :=
  decode 0x3100 = .command .parReset ∧
  ∀ s : State, exec .parReset s = .next { s with parBuf := [], parState := .waitStart, rsp := some ⟨.ok, 0, []⟩ }

/-- No step moves the parser out of a frame but an ETX in `InFrame`, a `PAR_RESET`, a reset, or the abandon of a full finite
buffer: there is no timeout (R118). -/
def Obligations.ParserLeavesAFrameOnlySo : Prop :=
  ∀ (s s' t : State) (e : Element), s.nextElement = .element e s' → step s = .next t →
    s.parState ≠ .waitStart → t.parState = .waitStart →
    e = .reset ∨ e.instr? = some .parReset ∨ (e.instr? = some (.parPush 0x03) ∧ s.parState = .inFrame) ∨
    (s.params.parBufMax = some s.parBuf.length ∧
      ∃ d, e.instr? = some (.parPush d) ∧ (s.parState = .inEscape ∨ (d ≠ 0x1B ∧ d ≠ 0x03)))

/-- The round-trip law: the bytes of a frame, fed to a parser in `WaitStart` with no other parser command and no reset between,
give `NONE` for every byte but the last and `FRAME` with the payload for the last, and leave the parser in `WaitStart` with an
empty buffer, whichever commands of the other units come between; the payload has to fit a finite buffer (R122). -/
def Obligations.ParserReturnsTheEncodedPayload : Prop :=
  ∀ (p : List Byte) (es : List Element) (s t : State), NoReset es →
    unitInstrs .parser es = (encodeFrame p).map Instr.parPush → s.parState = .waitStart →
    (∀ m, s.params.parBufMax = some m → p.length + 2 ≤ m) → runOrder es s = .next t →
    unitResponses .parser es (responsesSince s t) =
      List.replicate ((encodeFrame p).length - 1) ⟨.none, 0, []⟩ ++ [⟨.frame, 0, p⟩] ∧
    t.parState = .waitStart ∧ t.parBuf = []

/-- After a frame with one byte between its delimiters changed, the parser is ready for the next one in every case but one: the
byte before the final ETX became an ESC and was not the second byte of an escape pair. Then the parser is left in `InFrame`
(R123 (b)). -/
def Obligations.OneCorruptionLeavesTheParserReady : Prop :=
  ∀ (p : List Byte) (i : Nat) (b : Byte) (k : Requester) (s t : State),
    0 < i → i + 1 < (encodeFrame p).length → (encodeFrame p)[i]? ≠ some b → s.parState = .waitStart →
    (∀ m, s.params.parBufMax = some m → p.length + 2 ≤ m) →
    runOrder (((encodeFrame p).set i b).map fun d => Element.ofInstr k (.parPush d)) s = .next t →
    (i + 2 = (encodeFrame p).length ∧ b = 0x1B ∧ (encodeFrame p)[i - 1]? ≠ some 0x1B → t.parState = .inFrame) ∧
    (¬ (i + 2 = (encodeFrame p).length ∧ b = 0x1B ∧ (encodeFrame p)[i - 1]? ≠ some 0x1B) → t.parState = .waitStart)

/-- Not every corrupted byte is detected: for some frame, one byte changed into `0x03`, the parser delivers another payload
(R123 (c)). -/
def Obligations.SomeCorruptionIsUndetected : Prop :=
  ∃ (p q : List Byte) (i : Nat), q ≠ p ∧ 0 < i ∧ i + 1 < (encodeFrame p).length ∧
    ∀ s : State, s.parState = .waitStart → s.params.parBufMax = none →
      ∃ t, runOrder (((encodeFrame p).set i 0x03).map fun d => Element.ofInstr .consumer (.parPush d)) s = .next t ∧
        q ∈ deliveredPayloads ((responsesSince s t).map Prod.snd)

/-! ### FIFO unit (spec/43_fifo.md) -/

/-- `FIFO_PUSH D` on a FIFO that is not full stores the byte at `fifo_head`, advances `fifo_head` circularly and counts one more;
every other cell, and everything outside the FIFO, stays; on a full FIFO it is `OVERFLOW` with no state write (R131, R130). -/
def Obligations.FifoPushStoresAtTheHead : Prop :=
  (∀ d : Byte, decode (0x4000 ||| d.setWidth 16) = .command (.fifoPush d)) ∧
  (∀ (d : Byte) (s : State), s.fifoCount ≠ s.params.fifoN → s.fifoHead < s.params.fifoN →
    ∃ t, exec (.fifoPush d) s = .next t ∧
      t.fifoMem.read? s.fifoHead = some d ∧ (∀ i, i ≠ s.fifoHead → t.fifoMem.read? i = s.fifoMem.read? i) ∧
      t.fifoHead = (if s.fifoHead + 1 = s.params.fifoN then 0 else s.fifoHead + 1) ∧ t.fifoTail = s.fifoTail ∧
      t.fifoCount = s.fifoCount + 1 ∧ t.rsp = some ⟨.ok, 0, []⟩ ∧
      SameCrc s t ∧ SameEncoder s t ∧ SameParser s t ∧ SameSurroundings s t) ∧
  (∀ (d : Byte) (s : State), s.fifoCount = s.params.fifoN →
    exec (.fifoPush d) s = .next { s with rsp := some ⟨.overflow, 0, []⟩ })

/-- `FIFO_POP` on a FIFO that is not empty returns the byte at `fifo_tail`, zero-extended, advances `fifo_tail` circularly and
counts one less; no cell changes, and nothing outside the FIFO; on an empty FIFO it is `UNDERFLOW` with no state write (R132,
R130, R140). The byte is the one a push wrote there, or the free value where none did (log 2). -/
def Obligations.FifoPopReadsAtTheTail : Prop :=
  decode 0x4100 = .command .fifoPop ∧
  (∀ s : State, s.fifoCount ≠ 0 → s.fifoTail < s.params.fifoN →
    exec .fifoPop s = .next { s with
      fifoTail := (if s.fifoTail + 1 = s.params.fifoN then 0 else s.fifoTail + 1)
      fifoCount := s.fifoCount - 1
      rsp := some ⟨.ok, (s.cell s.fifoTail).setWidth 16, []⟩ }) ∧
  (∀ (s : State) (b : Byte), s.fifoMem.read? s.fifoTail = some b → s.cell s.fifoTail = b) ∧
  (∀ s : State, s.fifoCount = 0 → exec .fifoPop s = .next { s with rsp := some ⟨.underflow, 0, []⟩ })

/-- The four observers: their encodings, what they return, and that they write no state; the capacity is constant, through a
reset too (R133 to R136). -/
def Obligations.FifoObserversOnlyRead : Prop :=
  (decode 0x4200 = .command .fifoEmpty ∧ decode 0x4300 = .command .fifoFull ∧ decode 0x4400 = .command .fifoSize ∧
    decode 0x4500 = .command .fifoCapacity) ∧
  (∀ s : State, exec .fifoEmpty s = .next { s with rsp := some ⟨.ok, if s.fifoCount = 0 then 1 else 0, []⟩ }) ∧
  (∀ s : State, exec .fifoFull s = .next { s with rsp := some ⟨.ok, if s.fifoCount = s.params.fifoN then 1 else 0, []⟩ }) ∧
  (∀ s : State, ∃ v : Word, exec .fifoSize s = .next { s with rsp := some ⟨.ok, v, []⟩ } ∧
    (s.Inv → v.toNat = s.fifoCount)) ∧
  (∀ s : State, ∃ v : Word, exec .fifoCapacity s = .next { s with rsp := some ⟨.ok, v, []⟩ } ∧
    (s.params.wellFormed = true → v.toNat = s.params.fifoN)) ∧
  (∀ s t : State, step s = .next t → t.params.fifoN = s.params.fifoN)

/-- Where `fifo_head` or `fifo_tail` is no index below `FIFO_N`, there is no such cell, and the push or pop that would use it
stops; the invariants rule such states out (R40; the model's fault, log 3). -/
def Obligations.NoCellOutsideTheStorage : Prop :=
  (∀ (d : Byte) (s : State), s.fifoCount ≠ s.params.fifoN → s.params.fifoN ≤ s.fifoHead →
    exec (.fifoPush d) s = .fault .noSuchCell) ∧
  (∀ s : State, s.fifoCount ≠ 0 → s.params.fifoN ≤ s.fifoTail → exec .fifoPop s = .fault .noSuchCell) ∧
  (∀ (i : Instr) (s : State) (f : Fault), s.Inv → exec i s ≠ .fault f)

/-- A pop never reads a cell that no push has written since reset: in every state that meets the invariants it returns the byte
a push wrote, and no free value (R140). -/
def Obligations.PopReturnsAWrittenByte : Prop :=
  ∀ s : State, s.Inv → s.fifoCount ≠ 0 → ∃ (b : Byte) (t : State), s.fifoMem.read? s.fifoTail = some b ∧
    exec .fifoPop s = .next t ∧ t.rsp = some ⟨.ok, b.setWidth 16, []⟩

/-- The circular buffer is a queue: a successful push appends its byte to what the FIFO holds, a successful pop takes the oldest
byte off, and no other command changes what it holds (R30, R131, R132, R137). -/
def Obligations.FifoHoldsAQueue : Prop :=
  (∀ (d : Byte) (s t : State), s.Inv → s.fifoCount ≠ s.params.fifoN → exec (.fifoPush d) s = .next t →
    t.fifoContents = s.fifoContents ++ [d]) ∧
  (∀ s t : State, s.Inv → s.fifoCount ≠ 0 → exec .fifoPop s = .next t →
    ∃ b, s.fifoContents = b :: t.fifoContents ∧ t.rsp = some ⟨.ok, b.setWidth 16, []⟩) ∧
  (∀ (i : Instr) (s t : State), exec i s = .next t → (∀ d, i ≠ .fifoPush d) → i ≠ .fifoPop →
    t.fifoContents = s.fifoContents)

/-- FIFO order over any reset-free run of both requesters: what was held, followed by the bytes of the successful pushes, is the
bytes of the successful pops, followed by what is held. From an empty FIFO, the k-th successful pop returns the byte of the k-th
successful push (R53, R137). -/
def Obligations.PopsComeInTheOrderOfPushes : Prop :=
  ∀ (es : List Element) (s t : State), s.Inv → NoReset es → runOrder es s = .next t →
    s.fifoContents ++ pushedBytes es (responsesSince s t) = poppedBytes es (responsesSince s t) ++ t.fifoContents

/-- The capacity law: of pushes from a FIFO that holds `c` bytes the first `N - c` succeed and the rest overflow; `n` pushes into
an empty FIFO of capacity `N >= n`, then `n` pops, give the bytes in order and leave it empty; a pop on an empty FIFO underflows
(R138). -/
def Obligations.CapacityBoundsThePushes : Prop :=
  (∀ (ds : List Byte) (k : Requester) (s t : State), s.Inv →
    runOrder (ds.map fun d => Element.ofInstr k (.fifoPush d)) s = .next t →
    responsesSince s t =
      (List.replicate (min ds.length (s.params.fifoN - s.fifoCount)) (k, ⟨.ok, 0, []⟩)) ++
      (List.replicate (ds.length - (s.params.fifoN - s.fifoCount)) (k, ⟨.overflow, 0, []⟩))) ∧
  (∀ (ds : List Byte) (k k' : Requester) (s t : State), s.Inv → s.fifoCount = 0 → ds.length ≤ s.params.fifoN →
    runOrder ((ds.map fun d => Element.ofInstr k (.fifoPush d)) ++
      List.replicate ds.length (Element.ofInstr k' .fifoPop)) s = .next t →
    poppedBytes ((ds.map fun d => Element.ofInstr k (.fifoPush d)) ++
      List.replicate ds.length (Element.ofInstr k' .fifoPop)) (responsesSince s t) = ds ∧ t.fifoCount = 0) ∧
  (∀ s : State, s.fifoCount = 0 → exec .fifoPop s = .next { s with rsp := some ⟨.underflow, 0, []⟩ })

/-- Each command touches at most one storage cell (R141): `touchedCell` is the head of a push with room, the tail of a pop of a
byte held, and no cell for every other command; it is a cell of the storage; a command that completes leaves every other cell as it
was, and does the same whatever the other cells hold. "Allocation-free after construction": it keeps the parameters, and from a
state that meets the invariants it leaves no more than `FIFO_N` cells. The rule's "O(1)" is a cost, which the model has no time
for (log 9). -/
def Obligations.CommandTouchesAtMostOneCell : Prop :=
  (∀ (i : Instr) (s : State) (j : Nat), s.touchedCell i = some j ↔
    ((∃ d, i = .fifoPush d) ∧ s.fifoCount ≠ s.params.fifoN ∧ j = s.fifoHead) ∨
    (i = .fifoPop ∧ s.fifoCount ≠ 0 ∧ j = s.fifoTail)) ∧
  (∀ (i : Instr) (s t : State), exec i s = .next t →
    (∀ j, s.touchedCell i = some j → j < s.params.fifoN) ∧
    (∀ j, s.touchedCell i ≠ some j → t.fifoMem.read? j = s.fifoMem.read? j) ∧
    (∀ m : Memory, (∀ j, s.touchedCell i = some j → m.read? j = s.fifoMem.read? j) →
      ∃ u, exec i { s with fifoMem := m } = .next u ∧ u = { t with fifoMem := u.fifoMem } ∧
        ∀ j, s.touchedCell i = some j → u.fifoMem.read? j = t.fifoMem.read? j) ∧
    t.params = s.params ∧ (s.Inv → t.fifoMem.length ≤ s.params.fifoN))

/-- From producer to consumer: in any reset-free run of the two requesters of the source, from an empty FIFO and a waiting parser, the bytes
fed to the parser are those of the successful pops, in order; and if the bytes that were pushed are those of a frame and all of
them were popped, the parser delivers exactly the frame's payload, once (R53, R122, R137; the premise on the requesters is what
R167 says of them). -/
def Obligations.SourceRequestersPassThePayload : Prop :=
  ∀ (es : List Element) (s t : State), s.Inv → s.fifoCount = 0 → s.parState = .waitStart → NoReset es →
    runOrder es s = .next t → RequestersAsInSource es (responsesSince s t) →
    parBytes es = poppedBytes es (responsesSince s t) ∧
    ∀ p : List Byte, (∀ m, s.params.parBufMax = some m → p.length + 2 ≤ m) → t.fifoCount = 0 →
      pushedBytes es (responsesSince s t) = encodeFrame p →
      deliveredPayloads (unitResponses .parser es (responsesSince s t)) = [p]
end

