-- ==== Sys2Proof/Laws/Crc.lean ====
section
/-! SUPPORT. Laws/Crc.lean: the small lemmas of the CRC function. -/

namespace Sys2Proof.Machine

@[simp] theorem crcBits_zero (r : Word) : crcBits 0 r = r := rfl

theorem crcBits_succ (n : Nat) (r : Word) : crcBits (n + 1) r = crcBits n (crcBit r) := rfl

/-- One bit is linear. -/
theorem crcBit_xor (r₁ r₂ : Word) : crcBit (r₁ ^^^ r₂) = crcBit r₁ ^^^ crcBit r₂ := by
  unfold crcBit
  rw [BitVec.getLsbD_xor, BitVec.shiftLeft_xor_distrib]
  have hcc : ∀ a b p : Word, (a ^^^ p) ^^^ (b ^^^ p) = a ^^^ b := by
    intro a b p
    rw [BitVec.xor_comm b p, ← BitVec.xor_assoc, BitVec.xor_assoc a p p, BitVec.xor_self, BitVec.xor_zero]
  cases r₁.getLsbD 15 <;> cases r₂.getLsbD 15
  · rfl
  · exact BitVec.xor_assoc ..
  · exact by simp only [if_true, if_false, Bool.xor_false, BitVec.xor_assoc, BitVec.xor_comm crcPoly, reduceCtorEq]
  · exact (hcc ..).symm

/-- Any number of bits is linear. -/
theorem crcBits_xor (n : Nat) (r₁ r₂ : Word) : crcBits n (r₁ ^^^ r₂) = crcBits n r₁ ^^^ crcBits n r₂ := by
  induction n generalizing r₁ r₂ with
  | zero => rfl
  | succ n ih => rw [crcBits_succ, crcBit_xor, ih, crcBits_succ, crcBits_succ]

/-- Bits that meet no top bit only shift. -/
theorem crcBits_eq_shiftLeft (n : Nat) (r : Word) (h : ∀ i, i < n → r.getLsbD (15 - i) = false) (hn : n ≤ 16) :
    crcBits n r = r <<< n := by
  induction n generalizing r with
  | zero => simp
  | succ n ih =>
    have h0 : r.getLsbD 15 = false := h 0 (by omega)
    have hb : crcBit r = r <<< 1 := by unfold crcBit; rw [h0]; rfl
    rw [crcBits_succ, hb, ih _ _ (by omega)]
    · rw [← BitVec.shiftLeft_add, Nat.add_comm]
    · intro i hi
      have := h (i + 1) (by omega)
      rw [BitVec.getLsbD_shiftLeft]
      have he : 15 - i - 1 = 15 - (i + 1) := by omega
      rw [he, this]
      simp

@[simp] theorem computeCRC16_nil : computeCRC16 [] = crcInitValue := rfl

theorem computeCRC16_append (p q : List Byte) : computeCRC16 (p ++ q) = q.foldl crcStep (computeCRC16 p) := by
  simp [computeCRC16]

end Sys2Proof.Machine
end

