-- ==== Sys2Proof/Laws/State.lean ====
section
/-! SUPPORT. Laws/State.lean: one lemma per field for each named update of the state, so that no later proof unfolds one. -/

namespace Sys2Proof.Machine

/-! ### `respond`, `raise` and `deliver` -/

@[simp] theorem respond_eq (s : State) (st : Status) (v : Word) (bs : List Byte) :
    s.respond st v bs = .next { s with rsp := some { status := st, value := v, bytes := bs } } := rfl

@[simp] theorem raise_eq (s : State) (e : Error) :
    s.raise e = .next { s with rsp := some { status := e.status, value := 0, bytes := [] } } := rfl

@[simp] theorem Result.deliver_next (k : Requester) (s : State) :
    Result.deliver k (.next s) = .next (s.deliver k) := rfl

@[simp] theorem Result.deliver_fault (k : Requester) (f : Fault) :
    Result.deliver k (.fault f) = .fault f := rfl

@[simp] theorem Result.deliver_refused (k : Requester) (r : Refusal) :
    Result.deliver k (.refused r) = .refused r := rfl

/-- Delivering fails exactly as the command did. -/
theorem Result.deliver_eq_next {k : Requester} {r : Result} {t : State} :
    Result.deliver k r = .next t ↔ ∃ u, r = .next u ∧ t = u.deliver k := by
  cases r with
  | next u => simp [eq_comm]
  | fault f => simp
  | refused f => simp

theorem deliver_some {k : Requester} {s : State} {r : Response} (h : s.rsp = some r) :
    s.deliver k = { s with responses := s.responses ++ [(k, r)] } := by
  simp [State.deliver, h]

@[simp] theorem deliver_crcReg (k : Requester) (s : State) : (s.deliver k).crcReg = s.crcReg := by
  unfold State.deliver; split <;> rfl

@[simp] theorem deliver_encActive (k : Requester) (s : State) : (s.deliver k).encActive = s.encActive := by
  unfold State.deliver; split <;> rfl

@[simp] theorem deliver_encCrc (k : Requester) (s : State) : (s.deliver k).encCrc = s.encCrc := by
  unfold State.deliver; split <;> rfl

@[simp] theorem deliver_parState (k : Requester) (s : State) : (s.deliver k).parState = s.parState := by
  unfold State.deliver; split <;> rfl

@[simp] theorem deliver_parBuf (k : Requester) (s : State) : (s.deliver k).parBuf = s.parBuf := by
  unfold State.deliver; split <;> rfl

@[simp] theorem deliver_fifoMem (k : Requester) (s : State) : (s.deliver k).fifoMem = s.fifoMem := by
  unfold State.deliver; split <;> rfl

@[simp] theorem deliver_fifoHead (k : Requester) (s : State) : (s.deliver k).fifoHead = s.fifoHead := by
  unfold State.deliver; split <;> rfl

@[simp] theorem deliver_fifoTail (k : Requester) (s : State) : (s.deliver k).fifoTail = s.fifoTail := by
  unfold State.deliver; split <;> rfl

@[simp] theorem deliver_fifoCount (k : Requester) (s : State) : (s.deliver k).fifoCount = s.fifoCount := by
  unfold State.deliver; split <;> rfl

@[simp] theorem deliver_params (k : Requester) (s : State) : (s.deliver k).params = s.params := by
  unfold State.deliver; split <;> rfl

@[simp] theorem deliver_req0 (k : Requester) (s : State) : (s.deliver k).req0 = s.req0 := by
  unfold State.deliver; split <;> rfl

@[simp] theorem deliver_req1 (k : Requester) (s : State) : (s.deliver k).req1 = s.req1 := by
  unfold State.deliver; split <;> rfl

@[simp] theorem deliver_turns (k : Requester) (s : State) : (s.deliver k).turns = s.turns := by
  unfold State.deliver; split <;> rfl

@[simp] theorem deliver_rsp (k : Requester) (s : State) : (s.deliver k).rsp = s.rsp := by
  unfold State.deliver; split <;> rfl

@[simp] theorem deliver_resets (k : Requester) (s : State) : (s.deliver k).resets = s.resets := by
  unfold State.deliver; split <;> rfl

/-! ### `setQueue` -/

@[simp] theorem queue_setQueue_self (s : State) (k : Requester) (q : List Word) : (s.setQueue k q).queue k = q := by
  cases k <;> rfl

theorem queue_setQueue_other (s : State) {k k' : Requester} (h : k' ≠ k) (q : List Word) :
    (s.setQueue k q).queue k' = s.queue k' := by
  cases k <;> cases k' <;> first | rfl | exact absurd rfl h

@[simp] theorem setQueue_queue (s : State) (k : Requester) : s.setQueue k (s.queue k) = s := by
  cases k <;> rfl

@[simp] theorem setQueue_crcReg (s : State) (k : Requester) (q : List Word) : (s.setQueue k q).crcReg = s.crcReg := by
  cases k <;> rfl

@[simp] theorem setQueue_encActive (s : State) (k : Requester) (q : List Word) : (s.setQueue k q).encActive = s.encActive := by
  cases k <;> rfl

@[simp] theorem setQueue_encCrc (s : State) (k : Requester) (q : List Word) : (s.setQueue k q).encCrc = s.encCrc := by
  cases k <;> rfl

@[simp] theorem setQueue_parState (s : State) (k : Requester) (q : List Word) : (s.setQueue k q).parState = s.parState := by
  cases k <;> rfl

@[simp] theorem setQueue_parBuf (s : State) (k : Requester) (q : List Word) : (s.setQueue k q).parBuf = s.parBuf := by
  cases k <;> rfl

@[simp] theorem setQueue_fifoMem (s : State) (k : Requester) (q : List Word) : (s.setQueue k q).fifoMem = s.fifoMem := by
  cases k <;> rfl

@[simp] theorem setQueue_fifoHead (s : State) (k : Requester) (q : List Word) : (s.setQueue k q).fifoHead = s.fifoHead := by
  cases k <;> rfl

@[simp] theorem setQueue_fifoTail (s : State) (k : Requester) (q : List Word) : (s.setQueue k q).fifoTail = s.fifoTail := by
  cases k <;> rfl

@[simp] theorem setQueue_fifoCount (s : State) (k : Requester) (q : List Word) : (s.setQueue k q).fifoCount = s.fifoCount := by
  cases k <;> rfl

@[simp] theorem setQueue_params (s : State) (k : Requester) (q : List Word) : (s.setQueue k q).params = s.params := by
  cases k <;> rfl

@[simp] theorem setQueue_turns (s : State) (k : Requester) (q : List Word) : (s.setQueue k q).turns = s.turns := by
  cases k <;> rfl

@[simp] theorem setQueue_rsp (s : State) (k : Requester) (q : List Word) : (s.setQueue k q).rsp = s.rsp := by
  cases k <;> rfl

@[simp] theorem setQueue_responses (s : State) (k : Requester) (q : List Word) : (s.setQueue k q).responses = s.responses := by
  cases k <;> rfl

@[simp] theorem setQueue_resets (s : State) (k : Requester) (q : List Word) : (s.setQueue k q).resets = s.resets := by
  cases k <;> rfl

/-! ### `discard` -/

@[simp] theorem discard_crcReg (s : State) (k : Requester) (b : Bool) : (s.discard k b).crcReg = s.crcReg := by
  cases b <;> simp [State.discard]

@[simp] theorem discard_encActive (s : State) (k : Requester) (b : Bool) : (s.discard k b).encActive = s.encActive := by
  cases b <;> simp [State.discard]

@[simp] theorem discard_encCrc (s : State) (k : Requester) (b : Bool) : (s.discard k b).encCrc = s.encCrc := by
  cases b <;> simp [State.discard]

@[simp] theorem discard_parState (s : State) (k : Requester) (b : Bool) : (s.discard k b).parState = s.parState := by
  cases b <;> simp [State.discard]

@[simp] theorem discard_parBuf (s : State) (k : Requester) (b : Bool) : (s.discard k b).parBuf = s.parBuf := by
  cases b <;> simp [State.discard]

@[simp] theorem discard_fifoMem (s : State) (k : Requester) (b : Bool) : (s.discard k b).fifoMem = s.fifoMem := by
  cases b <;> simp [State.discard]

@[simp] theorem discard_fifoHead (s : State) (k : Requester) (b : Bool) : (s.discard k b).fifoHead = s.fifoHead := by
  cases b <;> simp [State.discard]

@[simp] theorem discard_fifoTail (s : State) (k : Requester) (b : Bool) : (s.discard k b).fifoTail = s.fifoTail := by
  cases b <;> simp [State.discard]

@[simp] theorem discard_fifoCount (s : State) (k : Requester) (b : Bool) : (s.discard k b).fifoCount = s.fifoCount := by
  cases b <;> simp [State.discard]

@[simp] theorem discard_params (s : State) (k : Requester) (b : Bool) : (s.discard k b).params = s.params := by
  cases b <;> simp [State.discard]

@[simp] theorem discard_turns (s : State) (k : Requester) (b : Bool) : (s.discard k b).turns = s.turns := by
  cases b <;> simp [State.discard]

@[simp] theorem discard_rsp (s : State) (k : Requester) (b : Bool) : (s.discard k b).rsp = s.rsp := by
  cases b <;> simp [State.discard]

@[simp] theorem discard_responses (s : State) (k : Requester) (b : Bool) : (s.discard k b).responses = s.responses := by
  cases b <;> simp [State.discard]

@[simp] theorem discard_resets (s : State) (k : Requester) (b : Bool) : (s.discard k b).resets = s.resets := by
  cases b <;> simp [State.discard]

/-! ### `blockReset` -/

@[simp] theorem blockReset_crcReg (s : State) : s.blockReset.crcReg = 0xFFFF := rfl

@[simp] theorem blockReset_encActive (s : State) : s.blockReset.encActive = false := rfl

@[simp] theorem blockReset_encCrc (s : State) : s.blockReset.encCrc = 0xFFFF := rfl

@[simp] theorem blockReset_parState (s : State) : s.blockReset.parState = .waitStart := rfl

@[simp] theorem blockReset_parBuf (s : State) : s.blockReset.parBuf = [] := rfl

@[simp] theorem blockReset_fifoMem (s : State) : s.blockReset.fifoMem = [] := rfl

@[simp] theorem blockReset_fifoHead (s : State) : s.blockReset.fifoHead = 0 := rfl

@[simp] theorem blockReset_fifoTail (s : State) : s.blockReset.fifoTail = 0 := rfl

@[simp] theorem blockReset_fifoCount (s : State) : s.blockReset.fifoCount = 0 := rfl

@[simp] theorem blockReset_params (s : State) : s.blockReset.params = s.params := rfl

@[simp] theorem blockReset_req0 (s : State) : s.blockReset.req0 = s.req0 := rfl

@[simp] theorem blockReset_req1 (s : State) : s.blockReset.req1 = s.req1 := rfl

@[simp] theorem blockReset_turns (s : State) : s.blockReset.turns = s.turns := rfl

@[simp] theorem blockReset_rsp (s : State) : s.blockReset.rsp = none := rfl

@[simp] theorem blockReset_responses (s : State) : s.blockReset.responses = s.responses := rfl

@[simp] theorem blockReset_resets (s : State) : s.blockReset.resets = s.resets + 1 := rfl

/-! ### `afterReset` -/

@[simp] theorem afterReset_crcReg (p : Params) : (State.afterReset p).crcReg = 0xFFFF := rfl

@[simp] theorem afterReset_encActive (p : Params) : (State.afterReset p).encActive = false := rfl

@[simp] theorem afterReset_encCrc (p : Params) : (State.afterReset p).encCrc = 0xFFFF := rfl

@[simp] theorem afterReset_parState (p : Params) : (State.afterReset p).parState = .waitStart := rfl

@[simp] theorem afterReset_parBuf (p : Params) : (State.afterReset p).parBuf = [] := rfl

@[simp] theorem afterReset_fifoMem (p : Params) : (State.afterReset p).fifoMem = [] := rfl

@[simp] theorem afterReset_fifoHead (p : Params) : (State.afterReset p).fifoHead = 0 := rfl

@[simp] theorem afterReset_fifoTail (p : Params) : (State.afterReset p).fifoTail = 0 := rfl

@[simp] theorem afterReset_fifoCount (p : Params) : (State.afterReset p).fifoCount = 0 := rfl

@[simp] theorem afterReset_params (p : Params) : (State.afterReset p).params = p := rfl

@[simp] theorem afterReset_req0 (p : Params) : (State.afterReset p).req0 = [] := rfl

@[simp] theorem afterReset_req1 (p : Params) : (State.afterReset p).req1 = [] := rfl

@[simp] theorem afterReset_turns (p : Params) : (State.afterReset p).turns = [] := rfl

@[simp] theorem afterReset_rsp (p : Params) : (State.afterReset p).rsp = none := rfl

@[simp] theorem afterReset_responses (p : Params) : (State.afterReset p).responses = [] := rfl

@[simp] theorem afterReset_resets (p : Params) : (State.afterReset p).resets = 0 := rfl

end Sys2Proof.Machine
end

