-- ==== Sys2Proof/Laws/Encoder.lean ====
section
/-! SUPPORT. Laws/Encoder.lean: the escaping rule, and what each encoder command does with and without an open frame
(spec/41_encoder.md R90, R95 to R98). -/

namespace Sys2Proof.Machine

theorem isReserved_iff (b : Byte) : isReserved b = true ↔ b = stx ∨ b = etx ∨ b = esc := by
  simp [isReserved, or_assoc]

theorem escape_reserved {b : Byte} (h : isReserved b = true) : escape b = [esc, b ^^^ escXor] := by
  simp [escape, h]

theorem escape_plain {b : Byte} (h : isReserved b = false) : escape b = [b] := by
  simp [escape, h]

/-- No byte that `escape` emits is STX or ETX. -/
theorem not_delimiter_of_mem_escape {b x : Byte} (h : x ∈ escape b) : x ≠ stx ∧ x ≠ etx := by
  cases hb : isReserved b with
  | true =>
    rw [escape_reserved hb] at h
    rcases (isReserved_iff b).1 hb with rfl | rfl | rfl <;>
      (simp only [List.mem_cons, List.not_mem_nil, or_false] at h; rcases h with rfl | rfl <;> decide)
  | false =>
    rw [escape_plain hb] at h
    simp only [List.mem_cons, List.not_mem_nil, or_false] at h
    subst h
    constructor <;> rintro rfl <;> revert hb <;> decide

theorem execEncStart_idle {s : State} (h : s.encActive = false) :
    execEncStart s = .next { s with encActive := true, encCrc := crcInitValue, rsp := some ⟨.ok, 0, [stx]⟩ } := by
  simp [execEncStart, h]

theorem execEncStart_open {s : State} (h : s.encActive = true) :
    execEncStart s = .next { s with rsp := some ⟨.seqErr, 0, []⟩ } := by
  simp [execEncStart, h, Error.status]

theorem execEncData_open {s : State} (h : s.encActive = true) (d : Byte) :
    execEncData d s = .next { s with encCrc := crcStep s.encCrc d, rsp := some ⟨.ok, 0, escape d⟩ } := by
  simp [execEncData, h]

theorem execEncData_idle {s : State} (h : s.encActive = false) (d : Byte) :
    execEncData d s = .next { s with rsp := some ⟨.seqErr, 0, []⟩ } := by
  simp [execEncData, h, Error.status]

theorem execEncEnd_open {s : State} (h : s.encActive = true) :
    execEncEnd s = .next { s with encActive := false, rsp := some ⟨.ok, s.encCrc, frameTail s.encCrc⟩ } := by
  simp [execEncEnd, h]

theorem execEncEnd_idle {s : State} (h : s.encActive = false) :
    execEncEnd s = .next { s with rsp := some ⟨.seqErr, 0, []⟩ } := by
  simp [execEncEnd, h, Error.status]

end Sys2Proof.Machine
end

