-- ==== Sys2Proof/Laws/Memory.lean ====
section
/-! SUPPORT. Laws/Memory.lean: reading after writing a FIFO cell, and that writing keeps the canonical form. -/

namespace Sys2Proof.Machine

@[simp] theorem Memory.read?_nil (i : Nat) : Memory.read? [] i = none := rfl

theorem Memory.read?_cons (j : Nat) (v : Byte) (m : Memory) (i : Nat) :
    Memory.read? ((j, v) :: m) i = if i = j then some v else Memory.read? m i := rfl

/-- A write changes the one cell it writes. -/
theorem Memory.read?_write (m : Memory) (i j : Nat) (v : Byte) :
    (Memory.write m i v).read? j = if j = i then some v else m.read? j := by
  induction m with
  | nil => simp [Memory.write, Memory.read?]
  | cons c m ih =>
    obtain ⟨k, u⟩ := c
    unfold Memory.write
    split
    · simp only [Memory.read?_cons]
    · split
      · rename_i h
        subst h
        simp only [Memory.read?_cons]
        split <;> rfl
      · simp only [Memory.read?_cons, ih]
        split
        · rename_i hk hj
          simp [hj, Ne.symm hk]
        · rfl

@[simp] theorem Memory.read?_write_self (m : Memory) (i : Nat) (v : Byte) :
    (Memory.write m i v).read? i = some v := by
  simp [Memory.read?_write]

theorem Memory.read?_write_other (m : Memory) {i j : Nat} (v : Byte) (h : j ≠ i) :
    (Memory.write m i v).read? j = m.read? j := by
  simp [Memory.read?_write, h]

theorem Memory.risingFrom_cons (n j : Nat) (v : Byte) (m : Memory) :
    Memory.risingFrom n ((j, v) :: m) = true ↔ n ≤ j ∧ Memory.risingFrom (j + 1) m = true := by
  simp [Memory.risingFrom]

/-- Writing at or above the bound `n` keeps the indices rising from `n`. -/
theorem Memory.risingFrom_write {n i : Nat} (h : n ≤ i) (v : Byte) {m : Memory} (hm : Memory.risingFrom n m = true) :
    Memory.risingFrom n (Memory.write m i v) = true := by
  induction m generalizing n with
  | nil => simpa [Memory.write, Memory.risingFrom] using h
  | cons c m ih =>
    obtain ⟨k, u⟩ := c
    rw [Memory.risingFrom_cons] at hm
    unfold Memory.write
    split
    · exact (Memory.risingFrom_cons ..).2 ⟨h, (Memory.risingFrom_cons ..).2 ⟨by omega, hm.2⟩⟩
    · split
      · rename_i hk
        subst hk
        exact (Memory.risingFrom_cons ..).2 hm
      · exact (Memory.risingFrom_cons ..).2 ⟨hm.1, ih (by omega) hm.2⟩

/-- A write keeps the canonical form. -/
theorem Memory.wf_write {m : Memory} (hm : m.wf = true) (i : Nat) (v : Byte) : (Memory.write m i v).wf = true :=
  Memory.risingFrom_write (Nat.zero_le i) v hm

/-- In a list whose indices rise from `n`, no cell below `n` is listed. -/
theorem Memory.read?_of_risingFrom {n : Nat} {m : Memory} (hm : Memory.risingFrom n m = true) {i : Nat} (hi : i < n) :
    m.read? i = none := by
  induction m generalizing n with
  | nil => rfl
  | cons c m ih =>
    obtain ⟨k, u⟩ := c
    rw [Memory.risingFrom_cons] at hm
    rw [Memory.read?_cons, if_neg (by omega)]
    exact ih hm.2 (by omega)

/-- A list whose indices rise from `n` and stay below `k` is no longer than that range. -/
theorem Memory.length_le_of_risingFrom {n k : Nat} {m : Memory} (hm : Memory.risingFrom n m = true)
    (hk : ∀ i, k ≤ i → m.read? i = none) : m.length ≤ k - n := by
  induction m generalizing n with
  | nil => exact Nat.zero_le _
  | cons c m ih =>
    obtain ⟨j, v⟩ := c
    rw [Memory.risingFrom_cons] at hm
    have hj : j < k := by
      by_contra h
      simpa [Memory.read?_cons] using hk j (by omega)
    have := ih hm.2 fun i hi => by
      have := hk i hi
      rwa [Memory.read?_cons, if_neg (by omega)] at this
    simp only [List.length_cons]
    omega

/-- Lists rising from `n` that read the same are the same. -/
theorem Memory.ext_of_risingFrom {n : Nat} {m m' : Memory} (hm : Memory.risingFrom n m = true)
    (hm' : Memory.risingFrom n m' = true) (h : ∀ i, m.read? i = m'.read? i) : m = m' := by
  induction m generalizing n m' with
  | nil =>
    cases m' with
    | nil => rfl
    | cons c m' => simpa [Memory.read?] using h c.1
  | cons c m ih =>
    obtain ⟨k, u⟩ := c
    cases m' with
    | nil => simpa [Memory.read?] using h k
    | cons c' m' =>
      obtain ⟨k', u'⟩ := c'
      rw [Memory.risingFrom_cons] at hm hm'
      have first_in_other : ∀ {a b : Nat} {x y : Byte} {l l' : Memory}, a < b → Memory.risingFrom (b + 1) l' = true →
          Memory.read? ((a, x) :: l) a ≠ Memory.read? ((b, y) :: l') a := by
        intro a b x y l l' hab hl'
        rw [Memory.read?_cons, if_pos rfl, Memory.read?_cons, if_neg (by omega),
          Memory.read?_of_risingFrom hl' (by omega)]
        simp
      have hk : k = k' := by
        by_contra hne
        rcases Nat.lt_or_gt_of_ne hne with hlt | hlt
        · exact first_in_other hlt hm'.2 (h k)
        · exact first_in_other hlt hm.2 (h k').symm
      subst hk
      have hu : u = u' := by simpa [Memory.read?_cons] using h k
      subst hu
      refine congrArg _ (ih hm.2 hm'.2 fun i => ?_)
      by_cases hi : i = k
      · rw [hi, Memory.read?_of_risingFrom hm.2 (by omega), Memory.read?_of_risingFrom hm'.2 (by omega)]
      · simpa [Memory.read?_cons, hi] using h i

/-- Canonical storages whose every cell reads the same are the same data. -/
theorem Memory.ext_of_wf {m m' : Memory} (hm : m.wf = true) (hm' : m'.wf = true)
    (h : ∀ i, m.read? i = m'.read? i) : m = m' :=
  Memory.ext_of_risingFrom hm hm' h

/-- Nothing is listed after a reset, and that is canonical. -/
theorem reset_mem_wf : State.reset.fifoMem.wf = true := rfl

/-- A written cell holds the byte written. -/
theorem cell_of_read? {s : State} {i : Nat} {b : Byte} (h : s.fifoMem.read? i = some b) : s.cell i = b := by
  simp [State.cell, h]

/-- A cell that no push wrote holds the free value. -/
theorem cell_of_unwritten {s : State} {i : Nat} (h : s.fifoMem.read? i = none) :
    s.cell i = Config.unwrittenCell s.resets i := by
  simp [State.cell, h]

end Sys2Proof.Machine
end

