-- ==== Sys2Proof/Laws/Fifo.lean ====
section
/-! SUPPORT. Laws/Fifo.lean: the FIFO's two conditions, its circular index, everything a push and a pop can do, and
the cell a command touches (spec/43_fifo.md R130 to R132, R141). -/

namespace Sys2Proof.Machine

theorem fifoIsEmpty_iff (s : State) : s.fifoIsEmpty = true ↔ s.fifoCount = 0 := by
  simp [State.fifoIsEmpty]

theorem fifoIsFull_iff (s : State) : s.fifoIsFull = true ↔ s.fifoCount = s.params.fifoN := by
  simp [State.fifoIsFull]

/-- The circular advance, written without `mod`. -/
theorem advance_eq {s : State} {i : Nat} (h : i < s.params.fifoN) :
    s.advance i = if i + 1 = s.params.fifoN then 0 else i + 1 := by
  unfold State.advance
  split
  · rename_i he
    rw [he, Nat.mod_self]
  · exact Nat.mod_eq_of_lt (by omega)

theorem advance_lt {s : State} (h : 0 < s.params.fifoN) (i : Nat) : s.advance i < s.params.fifoN :=
  Nat.mod_lt _ h

theorem execFifoPush_full {s : State} (h : s.fifoCount = s.params.fifoN) (d : Byte) :
    execFifoPush d s = .next { s with rsp := some ⟨.overflow, 0, []⟩ } := by
  unfold execFifoPush
  rw [if_pos ((fifoIsFull_iff s).2 h)]
  rfl

theorem execFifoPush_room {s : State} (h : s.fifoCount ≠ s.params.fifoN) (hh : s.fifoHead < s.params.fifoN) (d : Byte) :
    execFifoPush d s = .next { s with
      fifoMem := s.fifoMem.write s.fifoHead d
      fifoHead := s.advance s.fifoHead
      fifoCount := s.fifoCount + 1
      rsp := some ⟨.ok, 0, []⟩ } := by
  unfold execFifoPush
  rw [if_neg (mt (fifoIsFull_iff s).1 h), if_pos hh]
  rfl

theorem execFifoPush_noCell {s : State} (h : s.fifoCount ≠ s.params.fifoN) (hh : s.params.fifoN ≤ s.fifoHead) (d : Byte) :
    execFifoPush d s = .fault .noSuchCell := by
  unfold execFifoPush
  rw [if_neg (mt (fifoIsFull_iff s).1 h), if_neg (by omega)]

theorem execFifoPop_empty {s : State} (h : s.fifoCount = 0) :
    execFifoPop s = .next { s with rsp := some ⟨.underflow, 0, []⟩ } := by
  unfold execFifoPop
  rw [if_pos ((fifoIsEmpty_iff s).2 h)]
  rfl

theorem execFifoPop_held {s : State} (h : s.fifoCount ≠ 0) (ht : s.fifoTail < s.params.fifoN) :
    execFifoPop s = .next { s with
      fifoTail := s.advance s.fifoTail
      fifoCount := s.fifoCount - 1
      rsp := some ⟨.ok, zext16 (s.cell s.fifoTail), []⟩ } := by
  unfold execFifoPop
  rw [if_neg (mt (fifoIsEmpty_iff s).1 h), if_pos ht]
  rfl

theorem execFifoPop_noCell {s : State} (h : s.fifoCount ≠ 0) (ht : s.params.fifoN ≤ s.fifoTail) :
    execFifoPop s = .fault .noSuchCell := by
  unfold execFifoPop
  rw [if_neg (mt (fifoIsEmpty_iff s).1 h), if_neg (by omega)]

/-- Everything a push can do and go on. -/
theorem execFifoPush_cases {d : Byte} {s t : State} (h : execFifoPush d s = .next t) :
    (s.fifoCount = s.params.fifoN ∧ t = { s with rsp := some ⟨.overflow, 0, []⟩ }) ∨
    (s.fifoCount ≠ s.params.fifoN ∧ s.fifoHead < s.params.fifoN ∧
      t = { s with
        fifoMem := s.fifoMem.write s.fifoHead d
        fifoHead := s.advance s.fifoHead
        fifoCount := s.fifoCount + 1
        rsp := some ⟨.ok, 0, []⟩ }) := by
  by_cases hf : s.fifoCount = s.params.fifoN
  · rw [execFifoPush_full hf] at h
    cases h
    exact .inl ⟨hf, rfl⟩
  · by_cases hh : s.fifoHead < s.params.fifoN
    · rw [execFifoPush_room hf hh] at h
      cases h
      exact .inr ⟨hf, hh, rfl⟩
    · rw [execFifoPush_noCell hf (by omega)] at h
      cases h

/-- Everything a pop can do and go on. -/
theorem execFifoPop_cases {s t : State} (h : execFifoPop s = .next t) :
    (s.fifoCount = 0 ∧ t = { s with rsp := some ⟨.underflow, 0, []⟩ }) ∨
    (s.fifoCount ≠ 0 ∧ s.fifoTail < s.params.fifoN ∧
      t = { s with
        fifoTail := s.advance s.fifoTail
        fifoCount := s.fifoCount - 1
        rsp := some ⟨.ok, zext16 (s.cell s.fifoTail), []⟩ }) := by
  by_cases hf : s.fifoCount = 0
  · rw [execFifoPop_empty hf] at h
    cases h
    exact .inl ⟨hf, rfl⟩
  · by_cases hh : s.fifoTail < s.params.fifoN
    · rw [execFifoPop_held hf hh] at h
      cases h
      exact .inr ⟨hf, hh, rfl⟩
    · rw [execFifoPop_noCell hf (by omega)] at h
      cases h

theorem touchedCell_push {s : State} {d : Byte} {j : Nat} :
    s.touchedCell (.fifoPush d) = some j ↔ s.fifoCount ≠ s.params.fifoN ∧ s.fifoHead = j := by
  simp [State.touchedCell, State.fifoIsFull]

theorem touchedCell_pop {s : State} {j : Nat} :
    s.touchedCell .fifoPop = some j ↔ s.fifoCount ≠ 0 ∧ s.fifoTail = j := by
  simp [State.touchedCell, State.fifoIsEmpty]

/-- Only a push that succeeds and a pop that succeeds touch a cell. -/
theorem touchedCell_cases {s : State} {i : Instr} {j : Nat} (h : s.touchedCell i = some j) :
    ((∃ d, i = .fifoPush d) ∧ s.fifoCount ≠ s.params.fifoN ∧ s.fifoHead = j) ∨
    (i = .fifoPop ∧ s.fifoCount ≠ 0 ∧ s.fifoTail = j) := by
  cases i with
  | fifoPush d => exact .inl ⟨⟨d, rfl⟩, touchedCell_push.1 h⟩
  | fifoPop => exact .inr ⟨rfl, touchedCell_pop.1 h⟩
  | _ => cases h

end Sys2Proof.Machine
end

