-- ==== Sys2Proof/Laws/Parser.lean ====
section
/-! SUPPORT. Laws/Parser.lean: what the operations of the parser do, one lemma per row of the transition table
(spec/42_parser.md R105). -/

namespace Sys2Proof.Machine

theorem parAppend_room {s : State} (h : s.params.parBufMax ≠ some s.parBuf.length) (v : Byte) :
    parAppend s v = ({ s with parBuf := s.parBuf ++ [v], parState := .inFrame }, .none, []) := by
  simp [parAppend, h]

theorem parAppend_full {s : State} (h : s.params.parBufMax = some s.parBuf.length) (v : Byte) :
    parAppend s v = ({ s with parBuf := [], parState := .waitStart }, .none, []) := by
  simp [parAppend, parAbandon, h]

theorem parseStep_waitStart_stx {s : State} (h : s.parState = .waitStart) :
    parseStep s stx = ({ s with parBuf := [], parState := .inFrame }, .none, []) := by
  simp [parseStep, h]

theorem parseStep_waitStart_other {s : State} (h : s.parState = .waitStart) {b : Byte} (hb : b ≠ stx) :
    parseStep s b = (s, .none, []) := by
  simp [parseStep, h, hb]

theorem parseStep_inFrame_esc {s : State} (h : s.parState = .inFrame) :
    parseStep s esc = ({ s with parState := .inEscape }, .none, []) := by
  simp [parseStep, h]

theorem parseStep_inFrame_etx {s : State} (h : s.parState = .inFrame) : parseStep s etx = parFinalize s := by
  simp [parseStep, h, esc, etx]

theorem parseStep_inFrame_data {s : State} (h : s.parState = .inFrame) {b : Byte} (he : b ≠ esc) (hx : b ≠ etx) :
    parseStep s b = parAppend s b := by
  simp [parseStep, h, he, hx]

theorem parseStep_inEscape {s : State} (h : s.parState = .inEscape) (b : Byte) :
    parseStep s b = parAppend s (b ^^^ escXor) := by
  simp [parseStep, h]

theorem receivedCrc_append (p : List Byte) (msb lsb : Byte) :
    receivedCrc (p ++ [msb, lsb]) = some (wordOfBytes msb lsb) := by
  simp [receivedCrc]

theorem bodyOf_append (p : List Byte) (msb lsb : Byte) : bodyOf (p ++ [msb, lsb]) = p := by
  simp [bodyOf]

theorem validPayload_append (p : List Byte) (msb lsb : Byte) :
    validPayload (p ++ [msb, lsb]) = if wordOfBytes msb lsb = computeCRC16 p then some p else none := by
  simp [validPayload, receivedCrc_append, bodyOf_append]

theorem validPayload_short {buf : List Byte} (h : buf.length < 2) : validPayload buf = none := by
  have hr : receivedCrc buf = none := by
    match buf, h with
    | [], _ => rfl
    | [_], _ => rfl
  simp [validPayload, hr]

/-- One byte changes the parser's two fields and nothing else. -/
theorem parseStep_shape (s : State) (b : Byte) :
    (parseStep s b).1 =
      { s with parState := (parseStep s b).1.parState, parBuf := (parseStep s b).1.parBuf } := by
  have happ : ∀ v, (parAppend s v).1 =
      { s with parState := (parAppend s v).1.parState, parBuf := (parAppend s v).1.parBuf } := by
    intro v
    by_cases h : s.params.parBufMax = some s.parBuf.length
    · rw [parAppend_full h]
    · rw [parAppend_room h]
  unfold parseStep
  split
  · split <;> rfl
  · split
    · rfl
    · split
      · unfold parFinalize
        split <;> rfl
      · exact happ b
  · exact happ _

/-- A byte is answered with `NONE` and no BYTES, or with `FRAME`. -/
theorem parseStep_status (s : State) (b : Byte) :
    ((parseStep s b).2.1 = .none ∧ (parseStep s b).2.2 = []) ∨ (parseStep s b).2.1 = .frame := by
  have happ : ∀ v, (parAppend s v).2 = (.none, []) := by
    intro v
    by_cases h : s.params.parBufMax = some s.parBuf.length
    · rw [parAppend_full h]
    · rw [parAppend_room h]
  unfold parseStep
  split
  · split <;> exact .inl ⟨rfl, rfl⟩
  · split
    · exact .inl ⟨rfl, rfl⟩
    · split
      · unfold parFinalize
        split
        · exact .inr rfl
        · exact .inl ⟨rfl, rfl⟩
      · exact .inl ⟨by rw [happ], by rw [happ]⟩
  · exact .inl ⟨by rw [happ], by rw [happ]⟩

/-- What a byte does depends on the parser's two fields and the parameters alone. -/
theorem parseStep_congr {s s' : State} (hp : s'.params = s.params) (hs : s'.parState = s.parState)
    (hb : s'.parBuf = s.parBuf) (b : Byte) :
    (parseStep s' b).2 = (parseStep s b).2 ∧ (parseStep s' b).1.parState = (parseStep s b).1.parState ∧
      (parseStep s' b).1.parBuf = (parseStep s b).1.parBuf := by
  have happ : ∀ v, (parAppend s' v).2 = (parAppend s v).2 ∧
      (parAppend s' v).1.parState = (parAppend s v).1.parState ∧
      (parAppend s' v).1.parBuf = (parAppend s v).1.parBuf := by
    intro v
    simp only [parAppend, parAbandon, hp, hb]
    split <;> exact ⟨rfl, rfl, rfl⟩
  unfold parseStep
  rw [hs]
  split
  · split
    · exact ⟨rfl, rfl, rfl⟩
    · exact ⟨rfl, hs, hb⟩
  · split
    · exact ⟨rfl, rfl, hb⟩
    · split
      · simp only [parFinalize, hb]
        split <;> exact ⟨rfl, rfl, rfl⟩
      · exact happ _
  · exact happ _

end Sys2Proof.Machine
end

