-- ==== Sys2Proof/Laws/Order.lean ====
section
/-! SUPPORT. Laws/Order.lean: what a command, an element of the block's order and a step can do, said once. -/

namespace Sys2Proof.Machine

/-- The fields of the four units, and the response, are all a command writes; it always leaves a response. -/
theorem exec_shape {i : Instr} {s t : State} (h : exec i s = .next t) :
    ∃ r, t = { s with
      crcReg := t.crcReg, encActive := t.encActive, encCrc := t.encCrc, parState := t.parState, parBuf := t.parBuf,
      fifoMem := t.fifoMem, fifoHead := t.fifoHead, fifoTail := t.fifoTail, fifoCount := t.fifoCount,
      rsp := some r } := by
  cases i with
  | crcInit => cases h; exact ⟨_, rfl⟩
  | crcUpdate d => cases h; exact ⟨_, rfl⟩
  | crcRead => cases h; exact ⟨_, rfl⟩
  | encStart => simp only [exec, execEncStart] at h; split at h <;> (cases h; exact ⟨_, rfl⟩)
  | encData d => simp only [exec, execEncData] at h; split at h <;> (cases h; exact ⟨_, rfl⟩)
  | encEnd => simp only [exec, execEncEnd] at h; split at h <;> (cases h; exact ⟨_, rfl⟩)
  | parPush d =>
    simp only [exec, execParPush] at h
    rw [parseStep_shape] at h
    cases h
    exact ⟨_, rfl⟩
  | parReset => cases h; exact ⟨_, rfl⟩
  | fifoPush d =>
    simp only [exec, execFifoPush] at h
    split at h
    · cases h; exact ⟨_, rfl⟩
    · split at h
      · cases h; exact ⟨_, rfl⟩
      · cases h
  | fifoPop =>
    simp only [exec, execFifoPop] at h
    split at h
    · cases h; exact ⟨_, rfl⟩
    · split at h
      · cases h; exact ⟨_, rfl⟩
      · cases h
  | fifoEmpty => cases h; exact ⟨_, rfl⟩
  | fifoFull => cases h; exact ⟨_, rfl⟩
  | fifoSize => cases h; exact ⟨_, rfl⟩
  | fifoCapacity => cases h; exact ⟨_, rfl⟩

/-- What the requesters have still to ask, put into a state. -/
def State.withRequests (s : State) (q0 q1 : List Word) (ts : List Turn) : State :=
  { s with req0 := q0, req1 := q1, turns := ts }

/-- The same on what a command ended in. -/
def Result.withRequests (q0 q1 : List Word) (ts : List Turn) : Result → Result
  | .next t => .next (t.withRequests q0 q1 ts)
  | .fault f => .fault f
  | .refused r => .refused r

/-- A command neither reads nor writes what the requesters have still to ask. -/
theorem exec_withRequests (i : Instr) (s : State) (q0 q1 : List Word) (ts : List Turn) :
    exec i (s.withRequests q0 q1 ts) = Result.withRequests q0 q1 ts (exec i s) := by
  cases i with
  | parPush d =>
    have hc := parseStep_congr (s := s) (s' := s.withRequests q0 q1 ts) rfl rfl rfl d
    simp only [exec, execParPush, respond_eq]
    rw [parseStep_shape s d, parseStep_shape (s.withRequests q0 q1 ts) d, hc.1, hc.2.1, hc.2.2]
    rfl
  | fifoPush d =>
    simp only [exec]
    by_cases hf : s.fifoCount = s.params.fifoN
    · rw [execFifoPush_full hf, execFifoPush_full (s := s.withRequests q0 q1 ts) hf]
      rfl
    · by_cases hh : s.fifoHead < s.params.fifoN
      · rw [execFifoPush_room hf hh, execFifoPush_room (s := s.withRequests q0 q1 ts) hf hh]
        rfl
      · rw [execFifoPush_noCell hf (Nat.le_of_not_lt hh),
          execFifoPush_noCell (s := s.withRequests q0 q1 ts) hf (Nat.le_of_not_lt hh)]
        rfl
  | fifoPop =>
    simp only [exec]
    by_cases hf : s.fifoCount = 0
    · rw [execFifoPop_empty hf, execFifoPop_empty (s := s.withRequests q0 q1 ts) hf]
      rfl
    · by_cases hh : s.fifoTail < s.params.fifoN
      · rw [execFifoPop_held hf hh, execFifoPop_held (s := s.withRequests q0 q1 ts) hf hh]
        rfl
      · rw [execFifoPop_noCell hf (Nat.le_of_not_lt hh),
          execFifoPop_noCell (s := s.withRequests q0 q1 ts) hf (Nat.le_of_not_lt hh)]
        rfl
  | encStart =>
    simp only [exec]
    cases ha : s.encActive with
    | true =>
      rw [execEncStart_open ha, execEncStart_open (s := s.withRequests q0 q1 ts) ha]
      rfl
    | false =>
      rw [execEncStart_idle ha, execEncStart_idle (s := s.withRequests q0 q1 ts) ha]
      rfl
  | encData d =>
    simp only [exec]
    cases ha : s.encActive with
    | true =>
      rw [execEncData_open ha d, execEncData_open (s := s.withRequests q0 q1 ts) ha d]
      rfl
    | false =>
      rw [execEncData_idle ha d, execEncData_idle (s := s.withRequests q0 q1 ts) ha d]
      rfl
  | encEnd =>
    simp only [exec]
    cases ha : s.encActive with
    | true =>
      rw [execEncEnd_open ha, execEncEnd_open (s := s.withRequests q0 q1 ts) ha]
      rfl
    | false =>
      rw [execEncEnd_idle ha, execEncEnd_idle (s := s.withRequests q0 q1 ts) ha]
      rfl
  | crcInit | crcUpdate d | crcRead | parReset | fifoEmpty | fifoFull | fifoSize | fifoCapacity => rfl

/-- A command word is executed as its command, or as `raise ILLEGAL`. -/
theorem execWord_cases {s t : State} {w : Word} (h : s.execWord w = .next t) :
    (∃ i, decode w = .command i ∧ exec i s = .next t) ∨
    (∃ why, decode w = .illegal why ∧ t = { s with rsp := some ⟨.illegal, 0, []⟩ }) := by
  unfold State.execWord at h
  split at h
  · rename_i i hi
    exact .inl ⟨i, hi, h⟩
  · rename_i why hw
    cases h
    exact .inr ⟨why, hw, rfl⟩

/-- A command word that completes leaves a response. -/
theorem execWord_rsp {s t : State} {w : Word} (h : s.execWord w = .next t) : ∃ r, t.rsp = some r := by
  rcases execWord_cases h with ⟨i, -, hi⟩ | ⟨why, -, rfl⟩
  · obtain ⟨r, hr⟩ := exec_shape hi
    exact ⟨r, by rw [hr]⟩
  · exact ⟨_, rfl⟩

/-- A command of the order executes its word and hands the one response to its requester. -/
theorem apply_command {s t : State} {k : Requester} {w : Word} :
    s.apply (.command k w) = .next t ↔
      ∃ u r, s.execWord w = .next u ∧ u.rsp = some r ∧ t = { u with responses := u.responses ++ [(k, r)] } := by
  unfold State.apply
  rw [Result.deliver_eq_next]
  constructor
  · rintro ⟨u, hu, rfl⟩
    obtain ⟨r, hr⟩ := execWord_rsp hu
    exact ⟨u, r, hu, hr, deliver_some hr⟩
  · rintro ⟨u, r, hu, hr, rfl⟩
    exact ⟨u, hu, (deliver_some hr).symm⟩

@[simp] theorem apply_reset (s : State) : s.apply .reset = .next s.blockReset := rfl

/-- A step that goes on takes the next element of the order and does what it does. -/
theorem step_cases {s t : State} (h : step s = .next t) :
    ∃ e s', s.nextElement = .element e s' ∧ s'.apply e = .next t := by
  unfold step at h
  split at h
  · rename_i e s' he
    exact ⟨e, s', he, h⟩
  · cases h

theorem step_of_nextElement {s s' : State} {e : Element} (h : s.nextElement = .element e s') : step s = s'.apply e := by
  simp [step, h]

/-- Taking an element changes only the turns and the two queues. -/
theorem nextElement_shape {s s' : State} {e : Element} (h : s.nextElement = .element e s') :
    s' = { s with req0 := s'.req0, req1 := s'.req1, turns := s'.turns } := by
  unfold State.nextElement at h
  split at h
  · cases h
  · rename_i lost0 lost1 ts _
    cases h
    cases lost0 <;> cases lost1 <;> rfl
  · rename_i k ts _
    split at h
    · cases h
    · cases h
      cases k <;> rfl

/-- A command issued first is the next element, and taking it gives back the state it was issued on. -/
theorem nextElement_issueFirst (s : State) (k : Requester) (w : Word) :
    (s.issueFirst k w).nextElement = .element (.command k w) s := by
  cases k <;> rfl

/-- The step that the host asks about runs the command word of the opcode table on the state it was given. -/
theorem step_withFetchWord (s : State) (nbits w : Nat) :
    step (s.withFetchWord nbits w) = s.apply (.command .producer (tableWord nbits w)) :=
  step_of_nextElement (nextElement_issueFirst s .producer (tableWord nbits w))

theorem runOrder_nil (s : State) : runOrder [] s = .next s := rfl

theorem runOrder_cons (e : Element) (es : List Element) (s t : State) :
    runOrder (e :: es) s = .next t ↔ ∃ u, s.apply e = .next u ∧ runOrder es u = .next t := by
  simp only [runOrder]
  cases h : s.apply e with
  | next u => simp
  | fault f => simp
  | refused r => simp

/-- A run of two sequences is a run of the first and then of the second. -/
theorem runOrder_append (es es' : List Element) (s t : State) :
    runOrder (es ++ es') s = .next t ↔ ∃ u, runOrder es s = .next u ∧ runOrder es' u = .next t := by
  induction es generalizing s with
  | nil => simp [runOrder_nil]
  | cons e es ih =>
    simp only [List.cons_append, runOrder_cons, ih]
    constructor
    · rintro ⟨u, hu, v, hv, ht⟩
      exact ⟨v, ⟨u, hu, hv⟩, ht⟩
    · rintro ⟨v, ⟨u, hu, hv⟩, ht⟩
      exact ⟨u, hu, v, hv, ht⟩

end Sys2Proof.Machine
end

