-- ==== Sys2Proof/Laws/PerInstr.lean ====
section
/-! SUPPORT. Laws/PerInstr.lean: what holds of every command as a piece of syntax, one lemma per constructor. -/

namespace Sys2Proof.Laws.FormTaken

/-- Every command is well-formed: the type admits no operand its row does not take (spec/30_encoding.md R59). -/
def Statement (i : Instr) : Prop := i.wellFormed = true

theorem crcInit : Statement .crcInit := rfl

theorem crcUpdate (d : Byte) : Statement (.crcUpdate d) := rfl

theorem crcRead : Statement .crcRead := rfl

theorem encStart : Statement .encStart := rfl

theorem encData (d : Byte) : Statement (.encData d) := rfl

theorem encEnd : Statement .encEnd := rfl

theorem parPush (d : Byte) : Statement (.parPush d) := rfl

theorem parReset : Statement .parReset := rfl

theorem fifoPush (d : Byte) : Statement (.fifoPush d) := rfl

theorem fifoPop : Statement .fifoPop := rfl

theorem fifoEmpty : Statement .fifoEmpty := rfl

theorem fifoFull : Statement .fifoFull := rfl

theorem fifoSize : Statement .fifoSize := rfl

theorem fifoCapacity : Statement .fifoCapacity := rfl

end Sys2Proof.Laws.FormTaken

namespace Sys2Proof.Laws.UnitField

/-- The code of each unit (spec/30_encoding.md R58). -/
def code : BlockUnit → BitVec 4
  | .crc => 0x1
  | .encoder => 0x2
  | .parser => 0x3
  | .fifo => 0x4

/-- The word of a command carries its unit's code at `CMD[15:12]` (R58). -/
def Statement (i : Instr) : Prop := fieldUnit (encode i) = code i.unit

/-- An operand byte does not reach `CMD[15:12]`. -/
theorem fieldUnit_or (w : Word) (d : Byte) : fieldUnit (w ||| d.setWidth 16) = fieldUnit w := by
  unfold fieldUnit
  ext j hj
  have hd : d.getLsbD (12 + j) = false := BitVec.getLsbD_of_ge _ _ (by omega)
  simp [hd]

theorem crcInit : Statement .crcInit := rfl

theorem crcUpdate (d : Byte) : Statement (.crcUpdate d) := (fieldUnit_or (Mnemonic.opcodeWord .crcUpdate) d).trans rfl

theorem crcRead : Statement .crcRead := rfl

theorem encStart : Statement .encStart := rfl

theorem encData (d : Byte) : Statement (.encData d) := (fieldUnit_or (Mnemonic.opcodeWord .encData) d).trans rfl

theorem encEnd : Statement .encEnd := rfl

theorem parPush (d : Byte) : Statement (.parPush d) := (fieldUnit_or (Mnemonic.opcodeWord .parPush) d).trans rfl

theorem parReset : Statement .parReset := rfl

theorem fifoPush (d : Byte) : Statement (.fifoPush d) := (fieldUnit_or (Mnemonic.opcodeWord .fifoPush) d).trans rfl

theorem fifoPop : Statement .fifoPop := rfl

theorem fifoEmpty : Statement .fifoEmpty := rfl

theorem fifoFull : Statement .fifoFull := rfl

theorem fifoSize : Statement .fifoSize := rfl

theorem fifoCapacity : Statement .fifoCapacity := rfl

end Sys2Proof.Laws.UnitField
end

