-- ==== Sys2Proof/Tests/Slice0.lean ====
section
/-! SUPPORT. Tests/Slice0.lean: the spec's own vectors (spec/95_test_vectors.md and the examples of the rules) on single commands
and single steps, the ill-formed terms the checks refuse, and a witness for the hypotheses of each statement. -/

namespace Sys2Proof.Tests

open Sys2Proof.Machine

/-- The state a command or a step ends in. -/
def after : Result → Option State
  | .next t => some t
  | .fault _ => none
  | .refused _ => none

/-- The spec's test machine right after reset: `FIFO_N = 4`, `PARSER_BUF_MAX = UNBOUNDED`. -/
def base : State := State.afterReset ⟨4, none⟩

/-- The response a command gives on a state. -/
def answer (i : Instr) (s : State) : Option Response := (after (exec i s)).bind State.rsp

/-! ### Ill-formed terms (WellFormed.lean) -/

/-- The type `Instr` holds no ill-formed command; the check refuses the pairs of row and operand it is made of. -/
theorem test_form_refused : Mnemonic.takes .crcInit (some 0x00) = false ∧ Mnemonic.takes .crcUpdate none = false := by decide

theorem test_params_refused :
    Params.wellFormed ⟨0, none⟩ = false ∧ Params.wellFormed ⟨65536, none⟩ = false ∧ Params.wellFormed ⟨4, some 1⟩ = false ∧
    Params.wellFormed ⟨1, some 2⟩ = true ∧ Params.wellFormed ⟨65535, none⟩ = true := by decide

theorem test_line_refused :
    AsmLine.wellFormed ⟨.command .crcUpdate, []⟩ = false ∧ AsmLine.wellFormed ⟨.command .crcUpdate, [1, 2]⟩ = false ∧
    AsmLine.wellFormed ⟨.command .fifoPop, [0]⟩ = false ∧ AsmLine.wellFormed ⟨.command .parPush, [256]⟩ = false ∧
    AsmLine.wellFormed ⟨.parFeed, [2, 300]⟩ = false := by decide

/-! ### Decoding: words written out from UNIT, OP and D (R58, R60), and V-ERR-1 -/

theorem test_decode_crc :
    decode 0b0001_0000_00000000 = .command .crcInit ∧ decode 0b0001_0001_00110001 = .command (.crcUpdate 0x31) ∧
    decode 0b0001_0010_00000000 = .command .crcRead := by decide

theorem test_decode_encoder :
    decode 0b0010_0000_00000000 = .command .encStart ∧ decode 0b0010_0001_11111111 = .command (.encData 0xFF) ∧
    decode 0b0010_0010_00000000 = .command .encEnd := by decide

theorem test_decode_parser :
    decode 0b0011_0000_00011011 = .command (.parPush 0x1B) ∧ decode 0b0011_0001_00000000 = .command .parReset := by decide

theorem test_decode_fifo :
    decode 0b0100_0000_10101010 = .command (.fifoPush 0xAA) ∧ decode 0b0100_0001_00000000 = .command .fifoPop ∧
    decode 0b0100_0010_00000000 = .command .fifoEmpty ∧ decode 0b0100_0011_00000000 = .command .fifoFull ∧
    decode 0b0100_0100_00000000 = .command .fifoSize ∧ decode 0b0100_0101_00000000 = .command .fifoCapacity := by decide

theorem test_illegal_words :
    ([0x0000, 0x0042, 0x1001, 0x1201, 0x2301, 0x3200, 0x4101, 0x4601, 0x5000, 0xF000, 0xFFFF] : List Word).map legalInstr =
      List.replicate 11 none := by decide

/-- The host's numbering: the row of `CRC_UPDATE` with an operand of zeros, and an illegal word. -/
theorem test_table_word : decodeTableWord 16 0x1100 = some (.crcUpdate 0x00) ∧ decodeTableWord 16 0x1001 = none := by decide

/-! ### CRC unit: V-CRC-2, V-CRC-3, V-CRC-6 and the examples of R80 to R82 -/

theorem test_crcInit : (after (exec .crcInit { base with crcReg := 0x29B1 })).map State.crcReg = some 0xFFFF := by decide

theorem test_crcUpdate : answer (.crcUpdate 0x31) base = some ⟨.ok, 0xC782, []⟩ := by decide

theorem test_crcUpdate_reserved : answer (.crcUpdate 0x1B) { base with crcReg := 0 } = some ⟨.ok, 0xA35A, []⟩ := by decide

theorem test_crcRead : answer .crcRead { base with crcReg := 0x29B1 } = some ⟨.ok, 0x29B1, []⟩ := by decide

theorem test_crc_of_a_payload : computeCRC16 [0x01, 0x02, 0x03] = 0xADAD := by decide +kernel

/-! ### Encoder unit: V-ENC-8, V-ENC-10, V-ENC-11 and the examples of R96 to R98 -/

theorem test_encStart : answer .encStart base = some ⟨.ok, 0, [0x02]⟩ := by decide

theorem test_encStart_twice : answer .encStart { base with encActive := true } = some ⟨.seqErr, 0, []⟩ := by decide

theorem test_encData_escapes :
    (after (exec (.encData 0x02) { base with encActive := true, encCrc := 0xF1D1 })).map (fun t => (t.encCrc, t.rsp)) =
      some (0x0E7C, some ⟨.ok, 0, [0x1B, 0x22]⟩) := by decide

theorem test_encData_idle : answer (.encData 0x01) base = some ⟨.seqErr, 0, []⟩ := by decide

theorem test_encEnd :
    (after (exec .encEnd { base with encActive := true, encCrc := 0xADAD })).map (fun t => (t.encActive, t.rsp)) =
      some (false, some ⟨.ok, 0xADAD, [0xAD, 0xAD, 0x03]⟩) := by decide

/-- V-ENC-8: both bytes of the CRC are escaped. -/
theorem test_encEnd_escapes :
    answer .encEnd { base with encActive := true, encCrc := 0x0203 } =
      some ⟨.ok, 0x0203, [0x1B, 0x22, 0x1B, 0x23, 0x03]⟩ := by decide

/-- V-ENC-3, the source's scenario with all three escapes. -/
theorem test_frame :
    encodeFrame [0x02, 0x03, 0x1B, 0x55] =
      [0x02, 0x1B, 0x22, 0x1B, 0x23, 0x1B, 0x3B, 0x55, 0xE5, 0x21, 0x03] := by decide +kernel

/-! ### Parser unit: the examples of R115 and R116, V-PAR-5b, V-PAR-16 -/

/-- The example of R115. -/
theorem test_parPush_frame :
    (after (exec (.parPush 0x03) { base with parState := .inFrame, parBuf := [0x01, 0x02, 0x03, 0xAD, 0xAD] })).map
      (fun t => (t.parState, t.parBuf, t.rsp)) = some (.waitStart, [], some ⟨.frame, 0, [0x01, 0x02, 0x03]⟩) := by
  decide +kernel

/-- V-PAR-5b: an ETX after an ESC is data. V-PAR-16: with `PARSER_BUF_MAX = 4`, a fifth byte abandons the frame. -/
theorem test_parPush_appends :
    (after (exec (.parPush 0x03) { base with parState := .inEscape })).map (fun t => (t.parState, t.parBuf)) =
      some (.inFrame, [0x23]) ∧
    (after (exec (.parPush 0x45)
      { State.afterReset ⟨4, some 4⟩ with parState := .inFrame, parBuf := [0x41, 0x42, 0x43, 0x44] })).map
      (fun t => (t.parState, t.parBuf)) = some (.waitStart, []) := by decide

theorem test_parReset :
    (after (exec .parReset { base with parState := .inEscape, parBuf := [0x41] })).map
      (fun t => (t.parState, t.parBuf, t.rsp)) = some (.waitStart, [], some ⟨.ok, 0, []⟩) := by decide

/-! ### FIFO unit: the examples of R131 and R132, program P3, V-FIFO-2, V-FIFO-4 -/

/-- The FIFO of program P3 before its fourth push. -/
def three : State :=
  { base with fifoMem := [(0, 0x10), (1, 0x20), (2, 0x30)], fifoHead := 3, fifoCount := 3 }

/-- The FIFO of program P3 after its fourth push. -/
def full : State :=
  { base with fifoMem := [(0, 0x10), (1, 0x20), (2, 0x30), (3, 0x40)], fifoCount := 4 }

theorem test_fifoPush_wraps :
    (after (exec (.fifoPush 0x40) three)).map (fun t => (t.fifoMem.read? 3, t.fifoHead, t.fifoCount)) =
      some (some 0x40, 0, 4) := by decide

theorem test_fifoPush_overflow :
    (after (exec (.fifoPush 0x50) full)).map (fun t => (t.fifoMem, t.rsp)) =
      some (full.fifoMem, some ⟨.overflow, 0, []⟩) := by decide

theorem test_fifoPop :
    (after (exec .fifoPop full)).map (fun t => (t.fifoTail, t.fifoCount, t.rsp)) =
      some (1, 3, some ⟨.ok, 0x0010, []⟩) := by decide

theorem test_fifoPop_underflow : answer .fifoPop base = some ⟨.underflow, 0, []⟩ := by decide

theorem test_fifoEmpty : answer .fifoEmpty base = some ⟨.ok, 1, []⟩ ∧ answer .fifoEmpty full = some ⟨.ok, 0, []⟩ := by decide

theorem test_fifoFull : answer .fifoFull full = some ⟨.ok, 1, []⟩ ∧ answer .fifoFull base = some ⟨.ok, 0, []⟩ := by decide

theorem test_fifoSize : answer .fifoSize three = some ⟨.ok, 3, []⟩ := by decide

theorem test_fifoCapacity : answer .fifoCapacity (State.afterReset ⟨65535, none⟩) = some ⟨.ok, 0xFFFF, []⟩ := by decide

/-! ### Steps: the first command after reset, an illegal word, and V-RST-1 -/

theorem test_step_first_command :
    (after (step (State.reset.withFetchWord 16 0x4500))).map State.responses = some [(.producer, ⟨.ok, 4, []⟩)] := by decide

theorem test_step_illegal :
    (after (step (State.reset.withFetchWord 16 0xFFFF))).map State.responses = some [(.producer, ⟨.illegal, 0, []⟩)] := by decide

/-- V-RST-1, the requester 1 having a command outstanding that the reset discards. -/
theorem test_step_reset :
    after (step { base with
      crcReg := 0x1234, encActive := true, encCrc := 0x5678, parState := .inEscape, parBuf := [0x41], fifoHead := 3,
      fifoTail := 1, fifoCount := 2, req1 := [0x4100], turns := [.reset false true] }) =
      some { base with resets := 1 } := by decide

/-! ### Assembler: R69, R70 and program P2 -/

theorem test_assemble_command :
    assembleText ['C', 'R', 'C', '_', 'U', 'P', 'D', 'A', 'T', 'E', ' ', '0', 'x', '3', '1', ' ', ';', ' ', '1'] =
      some [0x1131] := by decide +kernel

theorem test_assemble_frame : assembleLine ⟨.encFrame, [1, 2, 3]⟩ = some [0x2000, 0x2101, 0x2102, 0x2103, 0x2200] := by
  decide +kernel

/-! ### Witnesses: a state and operands that meet the hypotheses of each statement -/

/-- A state that meets the invariants and holds one byte, in a frame. -/
def held : State :=
  { base with
    fifoMem := [(3, 0x41)], fifoHead := 0, fifoTail := 3, fifoCount := 1, parState := .inFrame, parBuf := [0x41] }

theorem held_inv : held.Inv where
  params_legal := by decide
  head_lt := by decide
  tail_lt := by decide
  count_le := by decide
  head_eq := by decide
  held_written := by decide
  cells_exist := by
    intro i hi
    have : (4 : Nat) ≤ i := hi
    have hne : i ≠ 3 := by omega
    simp [held, Memory.read?, hne]
  mem_wf := by decide
  waiting_empty := by decide
  buf_bounded := by
    intro m hm
    cases hm

theorem base_inv : base.Inv where
  params_legal := by decide
  head_lt := by decide
  tail_lt := by decide
  count_le := by decide
  head_eq := by decide
  held_written := by decide
  cells_exist := fun _ _ => rfl
  mem_wf := by decide
  waiting_empty := by decide
  buf_bounded := by
    intro m hm
    cases hm

/-- The same state with commands outstanding and turns to come. -/
def waiting (ts : List Turn) (q0 q1 : List Word) : State := { held with turns := ts, req0 := q0, req1 := q1 }

theorem waiting_inv (ts : List Turn) (q0 q1 : List Word) : (waiting ts q0 q1).Inv :=
  ⟨held_inv.1, held_inv.2, held_inv.3, held_inv.4, held_inv.5, held_inv.6, held_inv.7, held_inv.8, held_inv.9, held_inv.10⟩

/-- Meets `DecodeOfEncodeIsTheCommand`. -/
theorem test_met_wellFormed : Instr.wellFormed (.parPush 0xFF) = true := by decide

/-- Meets `EncodeOfDecodeIsTheWord`. -/
theorem test_met_decode : decode 0x30FF = .command (.parPush 0xFF) := by decide

/-- Meets `AtMostOneRowMatchesAWord`. -/
theorem test_met_row : (⟨.fifoPush, 0x4000, 0xFF00⟩ : OpcodeRow) ∈ opcodeTable ∧
    (0x40FF : Word) &&& 0xFF00 = 0x4000 := by decide

/-- Meets the second clause of `IllegalWordsAreThoseListed`, for each of the three reasons. -/
theorem test_met_illegal : decode 0x0FFF = .illegal .reservedUnit ∧ decode 0x4600 = .illegal .unassignedOp ∧
    decode 0x3101 = .illegal .nonzeroOperand := by decide

/-- Meets `StepRunsTheDecodedCommand`. -/
theorem test_met_step : (waiting [.serve .consumer] [] [0x4100]).turns = .serve .consumer :: [] ∧
    (waiting [.serve .consumer] [] [0x4100]).queue .consumer = 0x4100 :: [] ∧ decode 0x4100 = .command .fifoPop := by decide

/-- Meets `IllegalWordIsAnsweredIllegal`. -/
theorem test_met_step_illegal : (waiting [.serve .producer] [0x5000] []).turns = .serve .producer :: [] ∧
    (waiting [.serve .producer] [0x5000] []).queue .producer = 0x5000 :: [] ∧
    decode 0x5000 = .illegal .reservedUnit := by decide

/-- Meets `ResetSetsEveryField`. -/
theorem test_met_reset : (waiting [.reset true false] [0x1000] []).turns = .reset true false :: [] := rfl

/-- Meets each clause of `StuckOnlyWithoutACommand`. -/
theorem test_met_stuck : (waiting [] [] []).turns = [] ∧ (waiting [.serve .producer] [] []).turns = .serve .producer :: [] ∧
    (waiting [.serve .producer] [] []).queue .producer = [] ∧
    ((waiting [] [] []).Inv ∧ step (waiting [] [] []) = .fault .orderExhausted) :=
  ⟨rfl, rfl, rfl, waiting_inv _ _ _, rfl⟩

/-- Meets both clauses of `EitherRequesterMayBeNext`. -/
theorem test_met_either (k : Requester) : (waiting [.serve k] [0x4041] [0x4100]).Inv ∧
    (waiting [.serve k] [0x4041] [0x4100]).req0 = 0x4041 :: [] ∧
    (waiting [.serve k] [0x4041] [0x4100]).req1 = 0x4100 :: [] ∧
    (waiting [.serve k] [0x4041] [0x4100]).turns = .serve k :: [] :=
  ⟨waiting_inv _ _ _, rfl, rfl, rfl⟩

/-- Meets `RunIsTheBlocksOrder`. -/
theorem test_met_idle : base.turns = [] ∧ base.req0 = [] ∧ base.req1 = [] := by decide

/-- Meets both clauses of `EveryCommandIsAnsweredOnce`, and `EveryOrderRunsToItsEnd`. -/
theorem test_met_next : (waiting [.serve .producer] [0x4041] []).Inv ∧
    (waiting [.serve .producer] [0x4041] []).nextElement = .element (.command .producer 0x4041) held ∧
    (waiting [.reset false false] [] []).nextElement = .element .reset held :=
  ⟨waiting_inv _ _ _, rfl, rfl⟩

/-- Meets `EveryStepKeepsTheInvariants` and `NoStepChangesTheParameters`. -/
theorem test_met_inv_step : (waiting [.serve .producer] [0x4041] []).Inv ∧
    ∃ t, step (waiting [.serve .producer] [0x4041] []) = .next t :=
  ⟨waiting_inv _ _ _, _, rfl⟩

/-- Meets `ResetMeetsTheInvariants`, at the ends of each range. -/
theorem test_met_params : Params.wellFormed ⟨1, some 2⟩ = true ∧ Params.wellFormed ⟨65535, none⟩ = true := by decide

/-- Meets `CommandWritesOnlyItsUnit`, and the first clause of `FifoHoldsAQueue`. -/
theorem test_met_exec : held.Inv ∧ held.fifoCount ≠ held.params.fifoN ∧ ∃ t, exec (.fifoPush 0x42) held = .next t :=
  ⟨held_inv, by decide, _, rfl⟩

/-- Meets `CommandReadsOnlyItsUnit`, the two states differing in the CRC unit. -/
theorem test_met_same_unit : held.params = ({ held with crcReg := 7 } : State).params ∧
    held.resets = ({ held with crcReg := 7 } : State).resets ∧
    SameUnit (Instr.unit .fifoPop) held { held with crcReg := 7 } ∧ ∃ t, exec .fifoPop held = .next t :=
  ⟨rfl, rfl, ⟨rfl, rfl, rfl, fun _ => rfl⟩, _, rfl⟩

/-- Meets `ErrorsWriteNothing` and `ErrorsHaveTheirCauses`. -/
theorem test_met_error : ∃ t r, State.execWord full 0x4050 = .next t ∧ t.rsp = some r ∧ r.status.isError = true :=
  ⟨_, _, rfl, rfl, rfl⟩

/-- Meets `StatusesByCommand`. -/
theorem test_met_status : ∃ t r, exec (.parPush 0x03) base = .next t ∧ t.rsp = some r ∧ r.status = .none :=
  ⟨_, _, rfl, rfl, rfl⟩

/-- Meets both alternatives of `RepetitionChangesNothing`. -/
theorem test_met_repetition : (∃ t, exec .crcInit { base with crcReg := 0x29B1 } = .next t) ∧
    ∃ t r, exec (.fifoPush 0x50) full = .next t ∧ t.rsp = some r ∧ r.status.isError = true :=
  ⟨⟨_, rfl⟩, _, _, rfl, rfl, rfl⟩

/-- Meets the second clause of `CrcInitSetsTheRegister`. -/
theorem test_met_nonzero : (0x01 : Byte) ≠ 0 := by decide

/-- Meets both clauses of `CrcStepIsEightShifts` on the top bit, at the values where they meet. -/
theorem test_met_topBit : (0x7FFF : Word).toNat < 0x8000 ∧ 0x8000 ≤ (0x8000 : Word).toNat ∧
    (0x31 * 256 ^^^ 0xFFFF : Nat) < 65536 := by decide

/-- A sequence for `CrcStreamsOverInterleaving`: an update, a push of the other requester, an update. -/
def crcRun : List Element :=
  [.command .producer 0x1131, .command .consumer 0x4041, .command .producer 0x1132]

/-- Meets both clauses of `CrcStreamsOverInterleaving`. -/
theorem test_met_crcRun : NoReset crcRun ∧ (∀ e ∈ crcRun, e.instr? ≠ some .crcInit) ∧
    (∃ t, runOrder (Element.ofInstr .consumer .crcInit :: crcRun) base = .next t) ∧
    ∃ t, runOrder (.reset :: crcRun) base = .next t :=
  ⟨by unfold NoReset crcRun; decide, by decide, ⟨_, rfl⟩, _, rfl⟩

/-- Meets `CrcBlockReturnsTheCrc`. -/
theorem test_met_crcBlock :
    ∃ t, runOrder ((asmExpand ⟨.crcBlock, [(0x31 : Byte)].map BitVec.toNat⟩).map (Element.ofInstr .producer)) base = .next t :=
  ⟨_, rfl⟩

/-- Meets the last clause of `EscapeReplacesTheReservedBytes`, at neighbours of the reserved bytes. -/
theorem test_met_plain : (0x04 : Byte) ≠ 0x02 ∧ (0x04 : Byte) ≠ 0x03 ∧ (0x04 : Byte) ≠ 0x1B := by decide

/-- Meets the clauses of `EncStartOpensAFrame`, `EncDataEmitsTheEscapedByte` and `EncEndEmitsTheCrc`. -/
theorem test_met_encActive : base.encActive = false ∧ ({ base with encActive := true } : State).encActive = true := by decide

/-- Meets the last clause of `EncStartOpensAFrame`. -/
theorem test_met_closed :
    (after (({ base with encActive := true } : State).apply (.command .producer 0x2200))).map State.encActive = some false := by
  decide

/-- A sequence for `EncoderStreamsTheFrame`, with a command of another unit in it. -/
def encRun : List Element := [.command .consumer 0x4100, .command .producer 0x2141]

/-- The state that sequence leaves, between `ENC_START` and `ENC_END`, from the state after reset. -/
def encRunEnd : Option State :=
  after (runOrder (Element.ofInstr .producer .encStart :: encRun ++ [Element.ofInstr .producer .encEnd]) base)

/-- Meets `EncoderStreamsTheFrame`. -/
theorem test_met_encRun : NoReset encRun ∧ unitInstrs .encoder encRun = [0x41].map Instr.encData ∧
    encRunEnd.map (fun t => (unitResponses .encoder
      (Element.ofInstr .producer .encStart :: encRun ++ [Element.ofInstr .producer .encEnd]) (responsesSince base t)).map
      Response.status) = some [.ok, .ok, .ok] :=
  ⟨by unfold NoReset encRun; decide, by decide, by decide +kernel⟩

/-- Meets the clauses of `ParserWaitsForStx`, with the least other byte. -/
theorem test_met_waitStart : base.parState = .waitStart ∧ (0x00 : Byte) ≠ 0x02 := by decide

/-- Meets `ParserEscapes`. -/
theorem test_met_inFrame : held.parState = .inFrame := by decide

/-- Meets `ParserAppendsData` in both states, with STX as the data byte, with room and with a full buffer. -/
theorem test_met_append : (held.parState = .inFrame ∧ (0x02 : Byte) ≠ 0x1B ∧ (0x02 : Byte) ≠ 0x03) ∧
    ({ held with parState := .inEscape } : State).parState = .inEscape ∧
    held.params.parBufMax ≠ some held.parBuf.length ∧
    ({ held with params := ⟨4, some 2⟩, parBuf := [0x41, 0x42] } : State).params.parBufMax =
      some ({ held with params := ⟨4, some 2⟩, parBuf := [0x41, 0x42] } : State).parBuf.length := by decide

/-- Meets the clauses of `ParserFinalizesOnEtx`: one byte buffered; the CRC of nothing; and two bytes that are not it. -/
theorem test_met_etx : held.parBuf.length < 2 ∧
    ({ held with parBuf := [0xFF, 0xFF] } : State).parBuf = [] ++ [0xFF, 0xFF] ∧
    (0xFF : Byte).toNat * 256 + (0xFF : Byte).toNat = (computeCRC16 []).toNat ∧
    (0xFF : Byte).toNat * 256 + (0xFE : Byte).toNat ≠ (computeCRC16 []).toNat := by decide

/-- Meets `ParserLeavesAFrameOnlySo`, by a `PAR_RESET`. -/
theorem test_met_leaves : (waiting [.serve .consumer] [] [0x3100]).nextElement = .element (.command .consumer 0x3100) held ∧
    (waiting [.serve .consumer] [] [0x3100]).parState ≠ .waitStart ∧
    (after (step (waiting [.serve .consumer] [] [0x3100]))).map State.parState = some .waitStart :=
  ⟨rfl, by decide, by decide⟩

/-- The bytes of the empty payload's frame (R120), with a push of the other requester between. -/
def parRun : List Element :=
  [.command .consumer 0x3002, .command .producer 0x4041, .command .consumer 0x30FF, .command .consumer 0x30FF,
   .command .consumer 0x3003]

/-- Meets `ParserReturnsTheEncodedPayload`, with the smallest finite buffer. -/
theorem test_met_parRun : NoReset parRun ∧ unitInstrs .parser parRun = (encodeFrame []).map Instr.parPush ∧
    (State.afterReset ⟨4, some 2⟩).parState = .waitStart ∧
    (∀ m, (State.afterReset ⟨4, some 2⟩).params.parBufMax = some m → ([] : List Byte).length + 2 ≤ m) ∧
    (after (runOrder parRun (State.afterReset ⟨4, some 2⟩))).isSome = true :=
  ⟨by unfold NoReset parRun; decide, by decide, rfl, by intro m hm; cases hm; decide, by decide +kernel⟩

/-- Meets both clauses of `OneCorruptionLeavesTheParserReady` (V-PAR-13 is the first): at the byte before the ETX, and at the
first byte after the STX. -/
theorem test_met_corruption :
    ((0 : Nat) < 2 ∧ 2 + 1 < (encodeFrame []).length ∧ (encodeFrame [])[2]? ≠ some 0x1B ∧ 2 + 2 = (encodeFrame []).length ∧
      (encodeFrame [])[2 - 1]? ≠ some 0x1B) ∧
    ((0 : Nat) < 1 ∧ 1 + 1 < (encodeFrame []).length ∧ (encodeFrame [])[1]? ≠ some 0x03) ∧
    base.parState = .waitStart ∧ (∀ m, base.params.parBufMax = some m → ([] : List Byte).length + 2 ≤ m) ∧
    (after (runOrder (((encodeFrame []).set 2 0x1B).map fun d => Element.ofInstr .consumer (.parPush d)) base)).isSome = true ∧
    (after (runOrder (((encodeFrame []).set 1 0x03).map fun d => Element.ofInstr .consumer (.parPush d)) base)).isSome = true :=
  ⟨by decide, by decide, rfl, (by intro m hm; cases hm), by decide +kernel, by decide +kernel⟩

/-- Meets the clauses of `FifoPushStoresAtTheHead`: the last free cell, where the head wraps, and a full FIFO. -/
theorem test_met_push : three.fifoCount ≠ three.params.fifoN ∧ three.fifoHead < three.params.fifoN ∧
    full.fifoCount = full.params.fifoN := by decide

/-- Meets the clauses of `FifoPopReadsAtTheTail` and `PopReturnsAWrittenByte`: the last cell, where the tail wraps, and an empty
FIFO. -/
theorem test_met_pop : held.Inv ∧ held.fifoCount ≠ 0 ∧ held.fifoTail < held.params.fifoN ∧
    held.fifoMem.read? held.fifoTail = some 0x41 ∧ base.fifoCount = 0 :=
  ⟨held_inv, by decide, by decide, by decide, rfl⟩

/-- Meets the clauses of `FifoObserversOnlyRead`. -/
theorem test_met_observers : held.Inv ∧ held.params.wellFormed = true := ⟨held_inv, by decide⟩

/-- Meets the clauses of `NoCellOutsideTheStorage`, at the first index that is no cell. -/
theorem test_met_noCell : ({ base with fifoHead := 4 } : State).fifoCount ≠ ({ base with fifoHead := 4 } : State).params.fifoN ∧
    ({ base with fifoHead := 4 } : State).params.fifoN ≤ ({ base with fifoHead := 4 } : State).fifoHead ∧
    ({ base with fifoTail := 4, fifoCount := 1 } : State).fifoCount ≠ 0 ∧
    ({ base with fifoTail := 4, fifoCount := 1 } : State).params.fifoN ≤
      ({ base with fifoTail := 4, fifoCount := 1 } : State).fifoTail ∧ held.Inv :=
  ⟨by decide, by decide, by decide, by decide, held_inv⟩

/-- Meets the second and third clauses of `FifoHoldsAQueue`. -/
theorem test_met_queue : (∃ t, exec .fifoPop held = .next t) ∧ (∃ t, exec .crcRead held = .next t) ∧
    (∀ d, Instr.crcRead ≠ .fifoPush d) ∧ Instr.crcRead ≠ .fifoPop :=
  ⟨⟨_, rfl⟩, ⟨_, rfl⟩, by intro d; simp, by decide⟩

/-- Meets `PopsComeInTheOrderOfPushes`. -/
theorem test_met_fifoRun : held.Inv ∧ NoReset [.command .producer 0x4042, .command .consumer 0x4100] ∧
    (after (runOrder [.command .producer 0x4042, .command .consumer 0x4100] held)).isSome = true :=
  ⟨held_inv, by unfold NoReset; decide, by decide⟩

/-- Meets the clauses of `CapacityBoundsThePushes`, the first with a push that overflows. -/
theorem test_met_capacity : (State.afterReset ⟨1, none⟩).fifoCount = 0 ∧
    ([0xAA] : List Byte).length ≤ (State.afterReset ⟨1, none⟩).params.fifoN ∧ base.Inv ∧
    (after (runOrder (([0xAA, 0xBB] : List Byte).map fun d => Element.ofInstr .producer (.fifoPush d))
      (State.afterReset ⟨1, none⟩))).isSome = true ∧
    (after (runOrder ((([0xAA] : List Byte).map fun d => Element.ofInstr .producer (.fifoPush d)) ++
      List.replicate 1 (Element.ofInstr .consumer .fifoPop)) base)).isSome = true :=
  ⟨rfl, by decide, base_inv, by decide +kernel, by decide +kernel⟩

/-- Meets the clauses of `CommandTouchesAtMostOneCell`: a push with room, a pop of a byte held, a full push that touches no cell,
and another storage that agrees on the pop's cell alone. -/
theorem test_met_touchedCell : held.Inv ∧ (after (exec .fifoPop held)).isSome = true ∧
    held.touchedCell .fifoPop = some 3 ∧ held.touchedCell (.fifoPush 0x42) = some 0 ∧
    full.touchedCell (.fifoPush 0x50) = none ∧ full.touchedCell .fifoSize = none ∧
    Memory.read? [(0, 0x77), (3, 0x41)] 3 = held.fifoMem.read? 3 :=
  ⟨held_inv, by decide, by decide, by decide, by decide, by decide, by decide⟩

/-- The empty payload's frame pushed by the producer, popped and parsed by the consumer. -/
def pipeline : List Element :=
  [.command .producer 0x4002, .command .producer 0x40FF, .command .consumer 0x4100, .command .consumer 0x3002,
   .command .producer 0x40FF, .command .producer 0x4003] ++
  [.command .consumer 0x4100, .command .consumer 0x30FF, .command .consumer 0x4100, .command .consumer 0x30FF,
   .command .consumer 0x4100, .command .consumer 0x3003]

/-- Meets `SourceRequestersPassThePayload`. -/
theorem test_met_pipeline : base.Inv ∧ base.fifoCount = 0 ∧ base.parState = .waitStart ∧
    (∀ m, base.params.parBufMax = some m → ([] : List Byte).length + 2 ≤ m) ∧
    NoReset pipeline ∧ ∃ t, runOrder pipeline base = .next t ∧ RequestersAsInSource pipeline (responsesSince base t) ∧ t.fifoCount = 0 ∧
      pushedBytes pipeline (responsesSince base t) = encodeFrame [] :=
  ⟨base_inv, rfl, rfl, (by intro m hm; cases hm), (by unfold NoReset pipeline; decide), _, rfl, ⟨by decide +kernel, by decide +kernel⟩, by decide +kernel,
    by decide +kernel⟩

end Sys2Proof.Tests
end

section
/-! Proofs of the family 10_state: the block's invariants, the parameters, and the frame and the inputs of a command
(spec/10_state.md R30, R34, R36, R37). -/

namespace Sys2Proof.Machine

/-! ### What a command writes -/

/-- `s` with the state of the unit `u` taken from `t` (R20, R36). -/
def State.withUnitOf (u : BlockUnit) (s t : State) : State :=
  match u with
  | .crc => { s with crcReg := t.crcReg }
  | .encoder => { s with encActive := t.encActive, encCrc := t.encCrc }
  | .parser => { s with parState := t.parState, parBuf := t.parBuf }
  | .fifo => { s with
      fifoMem := t.fifoMem, fifoHead := t.fifoHead, fifoTail := t.fifoTail, fifoCount := t.fifoCount }

/-- A command writes the state of its own unit and its response, and that is all. -/
theorem exec_eq_withUnitOf {i : Instr} {s t : State} (h : exec i s = .next t) :
    ∃ r, t = { s.withUnitOf i.unit t with rsp := some r } := by
  cases i with
  | encStart | encData d | encEnd =>
    simp only [exec, execEncStart, execEncData, execEncEnd] at h
    split at h <;> (cases h; exact ⟨_, rfl⟩)
  | parPush d =>
    simp only [exec, execParPush] at h
    rw [parseStep_shape] at h
    cases h
    exact ⟨_, rfl⟩
  | fifoPush d => rcases execFifoPush_cases h with ⟨-, rfl⟩ | ⟨-, -, rfl⟩ <;> exact ⟨_, rfl⟩
  | fifoPop => rcases execFifoPop_cases h with ⟨-, rfl⟩ | ⟨-, -, rfl⟩ <;> exact ⟨_, rfl⟩
  | crcInit | crcUpdate d | crcRead | parReset | fifoEmpty | fifoFull | fifoSize | fifoCapacity =>
    cases h; exact ⟨_, rfl⟩

theorem sameUnit_refl (u : BlockUnit) (s : State) : SameUnit u s s := by
  cases u with
  | crc => exact rfl
  | encoder | parser => exact ⟨rfl, rfl⟩
  | fifo => exact ⟨rfl, rfl, rfl, fun _ => rfl⟩

/-- The response is in no unit. -/
theorem sameUnit_with_rsp {u : BlockUnit} {s t : State} (h : SameUnit u s t) (r r' : Option Response) :
    SameUnit u { s with rsp := r } { t with rsp := r' } := by
  cases u <;> exact h

/-- Taking one unit's state leaves the other units as they are. -/
theorem sameUnit_withUnitOf {u v : BlockUnit} (h : u ≠ v) (s t : State) : SameUnit u s (s.withUnitOf v t) := by
  cases u with
  | crc => cases v with
    | crc => exact absurd rfl h
    | _ => exact sameUnit_refl .crc s
  | encoder => cases v with
    | encoder => exact absurd rfl h
    | _ => exact sameUnit_refl .encoder s
  | parser => cases v with
    | parser => exact absurd rfl h
    | _ => exact sameUnit_refl .parser s
  | fifo => cases v with
    | fifo => exact absurd rfl h
    | _ => exact sameUnit_refl .fifo s

theorem sameSurroundings_withUnitOf (u : BlockUnit) (s t : State) (r : Option Response) :
    SameSurroundings s { s.withUnitOf u t with rsp := r } := by
  cases u <;> exact ⟨rfl, rfl, rfl, rfl, rfl, rfl⟩

/-- Settles O19: the state after a command is the state before it with its unit's fields and the response replaced. -/
theorem commandWritesOnlyItsUnit : Obligations.CommandWritesOnlyItsUnit := by
  intro i s t h
  obtain ⟨r, ht⟩ := exec_eq_withUnitOf h
  rw [ht]
  exact ⟨sameSurroundings_withUnitOf i.unit s t _,
    fun u hu => sameUnit_with_rsp (sameUnit_withUnitOf hu s t) s.rsp _⟩

/-! ### What a command reads -/

/-- Where the first result goes on, so does the second, with the same response and the same state of the unit `u`. -/
structure AgreeOn (u : BlockUnit) (r₁ r₂ : Result) : Prop where
  next : ∀ t₁, r₁ = .next t₁ → ∃ t₂, r₂ = .next t₂ ∧ t₂.rsp = t₁.rsp ∧ SameUnit u t₁ t₂

theorem agreeOn_respond {u : BlockUnit} {s₁ s₂ : State} {st : Status} {v : Word} {bs : List Byte}
    (h : SameUnit u s₁ s₂) : AgreeOn u (s₁.respond st v bs) (s₂.respond st v bs) := by
  constructor
  rintro t₁ ⟨⟩
  exact ⟨_, rfl, rfl, sameUnit_with_rsp h _ _⟩

theorem agreeOn_raise {u : BlockUnit} {s₁ s₂ : State} {e : Error} (h : SameUnit u s₁ s₂) :
    AgreeOn u (s₁.raise e) (s₂.raise e) :=
  agreeOn_respond h

theorem agreeOn_fault (u : BlockUnit) (f : Fault) (r : Result) : AgreeOn u (.fault f) r :=
  ⟨nofun⟩

theorem execCrcInit_agree (s₁ s₂ : State) : AgreeOn .crc (execCrcInit s₁) (execCrcInit s₂) :=
  agreeOn_respond rfl

theorem execCrcUpdate_agree (d : Byte) {s₁ s₂ : State} (h : SameCrc s₁ s₂) :
    AgreeOn .crc (execCrcUpdate d s₁) (execCrcUpdate d s₂) := by
  unfold execCrcUpdate
  rw [show s₂.crcReg = s₁.crcReg from h]
  exact agreeOn_respond rfl

theorem execCrcRead_agree {s₁ s₂ : State} (h : SameCrc s₁ s₂) :
    AgreeOn .crc (execCrcRead s₁) (execCrcRead s₂) := by
  unfold execCrcRead
  rw [show s₂.crcReg = s₁.crcReg from h]
  exact agreeOn_respond h

theorem execEncStart_agree {s₁ s₂ : State} (h : SameEncoder s₁ s₂) :
    AgreeOn .encoder (execEncStart s₁) (execEncStart s₂) := by
  unfold execEncStart
  rw [h.1]
  split
  · exact agreeOn_raise h
  · exact agreeOn_respond ⟨rfl, rfl⟩

theorem execEncData_agree (d : Byte) {s₁ s₂ : State} (h : SameEncoder s₁ s₂) :
    AgreeOn .encoder (execEncData d s₁) (execEncData d s₂) := by
  obtain ⟨hact, hcrc⟩ := h
  unfold execEncData
  rw [hact, hcrc]
  split
  · exact agreeOn_respond ⟨rfl, rfl⟩
  · exact agreeOn_raise ⟨hact, hcrc⟩

theorem execEncEnd_agree {s₁ s₂ : State} (h : SameEncoder s₁ s₂) :
    AgreeOn .encoder (execEncEnd s₁) (execEncEnd s₂) := by
  obtain ⟨hact, hcrc⟩ := h
  unfold execEncEnd
  rw [hact, hcrc]
  split
  · exact agreeOn_respond ⟨rfl, rfl⟩
  · exact agreeOn_raise ⟨hact, hcrc⟩

theorem execParPush_agree (d : Byte) {s₁ s₂ : State} (hp : s₁.params = s₂.params) (h : SameParser s₁ s₂) :
    AgreeOn .parser (execParPush d s₁) (execParPush d s₂) := by
  obtain ⟨hout, hstate, hbuf⟩ := parseStep_congr hp.symm h.1 h.2 d
  simp only [execParPush]
  rw [hout]
  exact agreeOn_respond ⟨hstate, hbuf⟩

theorem execParReset_agree (s₁ s₂ : State) : AgreeOn .parser (execParReset s₁) (execParReset s₂) :=
  agreeOn_respond ⟨rfl, rfl⟩

theorem cell_congr {s₁ s₂ : State} (hr : s₁.resets = s₂.resets) {i : Nat}
    (h : s₂.fifoMem.read? i = s₁.fifoMem.read? i) : s₂.cell i = s₁.cell i := by
  unfold State.cell
  rw [h, hr]

theorem execFifoPush_agree (d : Byte) {s₁ s₂ : State} (hp : s₁.params = s₂.params) (h : SameFifo s₁ s₂) :
    AgreeOn .fifo (execFifoPush d s₁) (execFifoPush d s₂) := by
  obtain ⟨hhead, htail, hcount, hmem⟩ := h
  unfold execFifoPush State.fifoIsFull State.advance
  rw [hhead, hcount, hp]
  split
  · exact agreeOn_raise ⟨hhead, htail, hcount, hmem⟩
  · split
    · refine agreeOn_respond ⟨rfl, htail, rfl, fun i => ?_⟩
      simp only [Memory.read?_write, hmem]
    · exact agreeOn_fault _ _ _

theorem execFifoPop_agree {s₁ s₂ : State} (hp : s₁.params = s₂.params) (hr : s₁.resets = s₂.resets)
    (h : SameFifo s₁ s₂) : AgreeOn .fifo (execFifoPop s₁) (execFifoPop s₂) := by
  obtain ⟨hhead, htail, hcount, hmem⟩ := h
  unfold execFifoPop State.fifoIsEmpty State.advance
  rw [htail, hcount, hp, cell_congr hr (hmem _)]
  split
  · exact agreeOn_raise ⟨hhead, htail, hcount, hmem⟩
  · split
    · exact agreeOn_respond ⟨hhead, rfl, rfl, hmem⟩
    · exact agreeOn_fault _ _ _

theorem execFifoEmpty_agree {s₁ s₂ : State} (h : SameFifo s₁ s₂) :
    AgreeOn .fifo (execFifoEmpty s₁) (execFifoEmpty s₂) := by
  have ⟨_, _, hcount, _⟩ := h
  unfold execFifoEmpty State.fifoIsEmpty
  rw [hcount]
  exact agreeOn_respond h

theorem execFifoFull_agree {s₁ s₂ : State} (hp : s₁.params = s₂.params) (h : SameFifo s₁ s₂) :
    AgreeOn .fifo (execFifoFull s₁) (execFifoFull s₂) := by
  have ⟨_, _, hcount, _⟩ := h
  unfold execFifoFull State.fifoIsFull
  rw [hcount, hp]
  exact agreeOn_respond h

theorem execFifoSize_agree {s₁ s₂ : State} (h : SameFifo s₁ s₂) :
    AgreeOn .fifo (execFifoSize s₁) (execFifoSize s₂) := by
  have ⟨_, _, hcount, _⟩ := h
  unfold execFifoSize
  rw [hcount]
  exact agreeOn_respond h

theorem execFifoCapacity_agree {s₁ s₂ : State} (hp : s₁.params = s₂.params) (h : SameFifo s₁ s₂) :
    AgreeOn .fifo (execFifoCapacity s₁) (execFifoCapacity s₂) := by
  unfold execFifoCapacity
  rw [hp]
  exact agreeOn_respond h

/-- Settles O20, command by command: what it tests, writes and returns is a function of its unit's fields, the parameters and,
for a pop, the free value. -/
theorem commandReadsOnlyItsUnit : Obligations.CommandReadsOnlyItsUnit := by
  intro i s₁ s₂ t₁ hp hr h
  suffices hi : AgreeOn i.unit (exec i s₁) (exec i s₂) from hi.next t₁
  cases i with
  | crcInit => exact execCrcInit_agree s₁ s₂
  | crcUpdate d => exact execCrcUpdate_agree d h
  | crcRead => exact execCrcRead_agree h
  | encStart => exact execEncStart_agree h
  | encData d => exact execEncData_agree d h
  | encEnd => exact execEncEnd_agree h
  | parPush d => exact execParPush_agree d hp h
  | parReset => exact execParReset_agree s₁ s₂
  | fifoPush d => exact execFifoPush_agree d hp h
  | fifoPop => exact execFifoPop_agree hp hr h
  | fifoEmpty => exact execFifoEmpty_agree h
  | fifoFull => exact execFifoFull_agree hp h
  | fifoSize => exact execFifoSize_agree h
  | fifoCapacity => exact execFifoCapacity_agree hp h

/-! ### The state after reset -/

/-- Settles O10: each clause is the value `State.afterReset` lists, and no cell of the empty storage was written. -/
theorem resetStateAsListed : Obligations.ResetStateAsListed := by
  intro p
  exact ⟨afterReset_crcReg p, afterReset_encActive p, afterReset_encCrc p, afterReset_parState p, afterReset_parBuf p,
    afterReset_fifoHead p, afterReset_fifoTail p, afterReset_fifoCount p, afterReset_params p,
    fun i => cell_of_unwritten (Memory.read?_nil i), rfl⟩

theorem Params.fifoN_pos {p : Params} (h : p.wellFormed = true) : 0 < p.fifoN := by
  simp only [Params.wellFormed, Bool.and_eq_true, decide_eq_true_eq] at h
  exact h.1.1

theorem afterReset_inv {p : Params} (h : p.wellFormed = true) : (State.afterReset p).Inv where
  params_legal := h
  head_lt := Params.fifoN_pos h
  tail_lt := Params.fifoN_pos h
  count_le := Nat.zero_le _
  head_eq := (Nat.zero_mod _).symm
  held_written k hk := absurd hk (Nat.not_lt_zero k)
  cells_exist i _ := Memory.read?_nil i
  mem_wf := reset_mem_wf
  waiting_empty _ := rfl
  buf_bounded _ _ := Nat.zero_le _

/-- Settles O17: the FIFO and the parser's buffer are empty, and a legal `FIFO_N` is positive. -/
theorem resetMeetsTheInvariants : Obligations.ResetMeetsTheInvariants := fun _ h => afterReset_inv h

/-! ### The parameters -/

theorem exec_params {i : Instr} {s t : State} (h : exec i s = .next t) : t.params = s.params := by
  obtain ⟨⟨hparams, -⟩, -⟩ := commandWritesOnlyItsUnit i s t h
  exact hparams

theorem execWord_params {s t : State} {w : Word} (h : s.execWord w = .next t) : t.params = s.params := by
  rcases execWord_cases h with ⟨i, -, hi⟩ | ⟨why, -, rfl⟩
  · exact exec_params hi
  · rfl

theorem apply_params {s t : State} {e : Element} (h : s.apply e = .next t) : t.params = s.params := by
  cases e with
  | command k w =>
    obtain ⟨u, r, hu, -, rfl⟩ := apply_command.1 h
    exact (execWord_params hu :)
  | reset =>
    cases h
    exact blockReset_params s

theorem nextElement_params {s s' : State} {e : Element} (h : s.nextElement = .element e s') : s'.params = s.params := by
  rw [nextElement_shape h]

/-- Settles O18: neither taking an element of the order nor applying it changes the parameters. -/
theorem noStepChangesTheParameters : Obligations.NoStepChangesTheParameters := by
  intro s t h
  obtain ⟨e, s', he, ht⟩ := step_cases h
  exact (apply_params ht).trans (nextElement_params he)

/-! ### The invariants -/

/-- No invariant speaks of the CRC unit, the encoder, the requesters, the responses or the reset count. -/
theorem State.Inv.with_others {s : State} (h : s.Inv) (c : Word) (a : Bool) (ec : Word) (q0 q1 : List Word)
    (ts : List Turn) (r : Option Response) (rs : List (Requester × Response)) (n : Nat) :
    State.Inv { s with crcReg := c, encActive := a, encCrc := ec, req0 := q0, req1 := q1, turns := ts, rsp := r,
                       responses := rs, resets := n } :=
  { h with }

/-- The two invariants of the parser (R30). -/
structure State.ParserInv (s : State) : Prop where
  waiting_empty : s.parState = .waitStart → s.parBuf = []
  buf_bounded : ∀ m, s.params.parBufMax = some m → s.parBuf.length ≤ m

theorem State.Inv.parserInv {s : State} (h : s.Inv) : s.ParserInv := ⟨h.waiting_empty, h.buf_bounded⟩

/-- An empty buffer meets the parser's invariants in every state. -/
theorem parserInv_of_empty {s : State} (h : s.parBuf = []) : s.ParserInv where
  waiting_empty _ := h
  buf_bounded m _ := by simp [h]

/-- The one place where the buffer grows: `append` tests the bound first (R113). -/
theorem parAppend_parserInv {s : State} (h : s.ParserInv) (v : Byte) : (parAppend s v).1.ParserInv := by
  by_cases hfull : s.params.parBufMax = some s.parBuf.length
  · rw [parAppend_full hfull]
    exact parserInv_of_empty rfl
  · rw [parAppend_room hfull]
    refine ⟨nofun, fun m hm => ?_⟩
    have hle : s.parBuf.length ≤ m := h.buf_bounded m hm
    have hne : s.parBuf.length ≠ m := by
      rintro rfl
      exact hfull hm
    simp only [List.length_append, List.length_singleton]
    omega

theorem parFinalize_parserInv (s : State) : (parFinalize s).1.ParserInv := by
  unfold parFinalize
  split <;> exact parserInv_of_empty rfl

theorem parseStep_parserInv {s : State} (h : s.ParserInv) (b : Byte) : (parseStep s b).1.ParserInv := by
  cases hs : s.parState with
  | waitStart =>
    by_cases hb : b = stx
    · rw [hb, parseStep_waitStart_stx hs]
      exact parserInv_of_empty rfl
    · rw [parseStep_waitStart_other hs hb]
      exact h
  | inFrame =>
    by_cases he : b = esc
    · rw [he, parseStep_inFrame_esc hs]
      exact ⟨nofun, h.buf_bounded⟩
    · by_cases hx : b = etx
      · rw [hx, parseStep_inFrame_etx hs]
        exact parFinalize_parserInv s
      · rw [parseStep_inFrame_data hs he hx]
        exact parAppend_parserInv h b
  | inEscape =>
    rw [parseStep_inEscape hs]
    exact parAppend_parserInv h _

theorem execParPush_inv {d : Byte} {s t : State} (h : s.Inv) (ht : execParPush d s = .next t) : t.Inv := by
  obtain ⟨hwait, hbound⟩ := parseStep_parserInv h.parserInv d
  simp only [execParPush] at ht
  rw [parseStep_shape] at hbound ht
  cases ht
  exact { h with waiting_empty := hwait, buf_bounded := hbound }

theorem execParReset_inv {s t : State} (h : s.Inv) (ht : execParReset s = .next t) : t.Inv := by
  cases ht
  exact { h with waiting_empty := fun _ => rfl, buf_bounded := fun _ _ => Nat.zero_le _ }

/-- Counting from the advanced index is counting one further from the index. -/
theorem advance_add_mod (s : State) (i k : Nat) :
    (s.advance i + k) % s.params.fifoN = (i + (k + 1)) % s.params.fifoN := by
  rw [State.advance, Nat.mod_add_mod, Nat.add_assoc, Nat.add_comm 1 k]

/-- A push with room: the head moves one past the newest byte, and its old cell is the one written. -/
theorem execFifoPush_inv {d : Byte} {s t : State} (h : s.Inv) (ht : execFifoPush d s = .next t) : t.Inv := by
  rcases execFifoPush_cases ht with ⟨-, rfl⟩ | ⟨hroom, -, rfl⟩
  · exact h.with_others ..
  · have hpos : 0 < s.params.fifoN := Nat.zero_lt_of_lt h.head_lt
    exact { h with
      head_lt := advance_lt hpos _
      count_le := Nat.lt_of_le_of_ne h.count_le hroom
      head_eq := by
        change (s.fifoHead + 1) % s.params.fifoN = (s.fifoTail + s.fifoCount + 1) % s.params.fifoN
        rw [h.head_eq, Nat.mod_add_mod]
      held_written := fun k (hk : k < s.fifoCount + 1) => by
        change (Memory.read? (Memory.write _ _ _) ((s.fifoTail + k) % s.params.fifoN)).isSome = true
        rw [Memory.read?_write]
        split
        · rfl
        · next hne =>
          have hk' : k ≠ s.fifoCount := by
            rintro rfl
            exact hne h.head_eq.symm
          exact h.held_written k (by omega)
      cells_exist := fun i (hi : s.params.fifoN ≤ i) => by
        change Memory.read? (Memory.write _ _ _) i = none
        rw [Memory.read?_write_other _ _ (Nat.ne_of_gt (Nat.lt_of_lt_of_le h.head_lt hi))]
        exact h.cells_exist i hi
      mem_wf := Memory.wf_write h.mem_wf _ _ }

/-- A pop of a held byte: the cells still held are those from one past the tail. -/
theorem execFifoPop_inv {s t : State} (h : s.Inv) (ht : execFifoPop s = .next t) : t.Inv := by
  rcases execFifoPop_cases ht with ⟨-, rfl⟩ | ⟨hheld, -, rfl⟩
  · exact h.with_others ..
  · have hpos : 0 < s.params.fifoN := Nat.zero_lt_of_lt h.head_lt
    exact { h with
      tail_lt := advance_lt hpos _
      count_le := Nat.le_trans (Nat.sub_le _ _) h.count_le
      head_eq := by
        change s.fifoHead = (s.advance s.fifoTail + (s.fifoCount - 1)) % s.params.fifoN
        rw [advance_add_mod, Nat.sub_add_cancel (Nat.pos_of_ne_zero hheld)]
        exact h.head_eq
      held_written := fun k (hk : k < s.fifoCount - 1) => by
        change (s.fifoMem.read? ((s.advance s.fifoTail + k) % s.params.fifoN)).isSome = true
        rw [advance_add_mod]
        exact h.held_written (k + 1) (by omega) }

theorem exec_inv {i : Instr} {s t : State} (h : s.Inv) (ht : exec i s = .next t) : t.Inv := by
  cases i with
  | parPush d => exact execParPush_inv h ht
  | parReset => exact execParReset_inv h ht
  | fifoPush d => exact execFifoPush_inv h ht
  | fifoPop => exact execFifoPop_inv h ht
  | crcInit | crcUpdate d | crcRead | encStart | encData d | encEnd =>
    obtain ⟨r, hr⟩ := exec_eq_withUnitOf ht
    rw [hr]
    exact h.with_others ..
  | fifoEmpty | fifoFull | fifoSize | fifoCapacity =>
    cases ht
    exact h.with_others ..

theorem execWord_inv {s t : State} {w : Word} (h : s.Inv) (ht : s.execWord w = .next t) : t.Inv := by
  rcases execWord_cases ht with ⟨i, -, hi⟩ | ⟨why, -, rfl⟩
  · exact exec_inv h hi
  · exact h.with_others ..

/-- One element of the block's order, a command or a reset, keeps the invariants. -/
theorem apply_inv {s t : State} {e : Element} (h : s.Inv) (ht : s.apply e = .next t) : t.Inv := by
  cases e with
  | command k w =>
    obtain ⟨u, r, hu, -, rfl⟩ := apply_command.1 ht
    exact (execWord_inv h hu).with_others ..
  | reset =>
    cases ht
    exact (afterReset_inv h.params_legal).with_others ..

theorem nextElement_inv {s s' : State} {e : Element} (h : s.Inv) (he : s.nextElement = .element e s') : s'.Inv := by
  rw [nextElement_shape he]
  exact h.with_others ..

/-- Settles O16: taking an element of the order touches no invariant, and applying it keeps them, command by command. -/
theorem everyStepKeepsTheInvariants : Obligations.EveryStepKeepsTheInvariants := by
  intro s t h hstep
  obtain ⟨e, s', he, ht⟩ := step_cases hstep
  exact apply_inv (nextElement_inv h he) ht

end Sys2Proof.Machine
end

section
/-! Proofs of the family 20_memory: the block's order over its two requesters, repetition, the storage's bounds, and the passage
from producer to consumer (spec/20_memory.md R40, R47 to R53). -/

namespace Sys2Proof.Machine

/-! ### One step of the block's order -/

theorem execWord_command {w : Word} {i : Instr} (h : decode w = .command i) (s : State) : s.execWord w = exec i s := by
  simp [State.execWord, h]

theorem execWord_illegal {w : Word} {why : IllegalWord} (h : decode w = .illegal why) (s : State) :
    s.execWord w = s.raise .illegal := by
  simp [State.execWord, h]

theorem nextElement_serve {s : State} {k : Requester} {ts : List Turn} {w : Word} {ws : List Word}
    (ht : s.turns = .serve k :: ts) (hq : s.queue k = w :: ws) :
    s.nextElement = .element (.command k w) (({ s with turns := ts } : State).setQueue k ws) := by
  simp [State.nextElement, ht, hq]

/-- Settles O7: the turn names `k`, the head of `k`'s queue is the word, and the word is executed as its command. -/
theorem stepRunsTheDecodedCommand : Obligations.StepRunsTheDecodedCommand := by
  intro s k ts w ws i ht hq hw
  rw [step_of_nextElement (nextElement_serve ht hq), State.apply, execWord_command hw]

/-! ### Totality under the invariants -/

/-- In a state that meets the invariants every command gives a next state: the indices a push and a pop use are cells. -/
theorem exec_total {s : State} (h : s.Inv) (i : Instr) : ∃ t, exec i s = .next t := by
  cases i with
  | fifoPush d =>
    by_cases hf : s.fifoCount = s.params.fifoN
    · exact ⟨_, execFifoPush_full hf d⟩
    · exact ⟨_, execFifoPush_room hf h.head_lt d⟩
  | fifoPop =>
    by_cases hz : s.fifoCount = 0
    · exact ⟨_, execFifoPop_empty hz⟩
    · exact ⟨_, execFifoPop_held hz h.tail_lt⟩
  | encStart =>
    cases ha : s.encActive with
    | true => exact ⟨_, execEncStart_open ha⟩
    | false => exact ⟨_, execEncStart_idle ha⟩
  | encData d =>
    cases ha : s.encActive with
    | true => exact ⟨_, execEncData_open ha d⟩
    | false => exact ⟨_, execEncData_idle ha d⟩
  | encEnd =>
    cases ha : s.encActive with
    | true => exact ⟨_, execEncEnd_open ha⟩
    | false => exact ⟨_, execEncEnd_idle ha⟩
  | crcInit | crcUpdate d | crcRead | parPush d | parReset | fifoEmpty | fifoFull | fifoSize | fifoCapacity =>
    exact ⟨_, rfl⟩

theorem execWord_total {s : State} (h : s.Inv) (w : Word) : ∃ t, s.execWord w = .next t := by
  cases hw : decode w with
  | command i =>
    rw [execWord_command hw]
    exact exec_total h i
  | illegal why => exact ⟨_, execWord_illegal hw s⟩

/-- Settles O54: a push and a pop test their index, and the invariants put it below `FIFO_N`. -/
theorem noCellOutsideTheStorage : Obligations.NoCellOutsideTheStorage := by
  refine ⟨fun d s hroom hhead => execFifoPush_noCell hroom hhead d,
    fun s hheld htail => execFifoPop_noCell hheld htail, fun i s f h hf => ?_⟩
  obtain ⟨t, ht⟩ := exec_total h i
  rw [ht] at hf
  cases hf

/-! ### What the requesters have still to ask is only carried along -/

theorem withRequests_self (s : State) : s.withRequests s.req0 s.req1 s.turns = s := rfl

theorem execWord_withRequests (s : State) (w : Word) (q0 q1 : List Word) (ts : List Turn) :
    (s.withRequests q0 q1 ts).execWord w = Result.withRequests q0 q1 ts (s.execWord w) := by
  cases hw : decode w with
  | command i =>
    rw [execWord_command hw, execWord_command hw]
    exact exec_withRequests i s q0 q1 ts
  | illegal why =>
    rw [execWord_illegal hw, execWord_illegal hw]
    rfl

theorem deliver_withRequests (s : State) (k : Requester) (q0 q1 : List Word) (ts : List Turn) :
    (s.withRequests q0 q1 ts).deliver k = (s.deliver k).withRequests q0 q1 ts := by
  cases hr : s.rsp with
  | some r =>
    rw [deliver_some hr, deliver_some (s := s.withRequests q0 q1 ts) hr]
    rfl
  | none => simp [State.deliver, State.withRequests, hr]

theorem apply_withRequests (s : State) (e : Element) (q0 q1 : List Word) (ts : List Turn) :
    (s.withRequests q0 q1 ts).apply e = Result.withRequests q0 q1 ts (s.apply e) := by
  cases e with
  | reset => rfl
  | command k w =>
    simp only [State.apply, execWord_withRequests]
    cases s.execWord w with
    | next t => exact congrArg Host.Outcome.next (deliver_withRequests t k q0 q1 ts)
    | fault f => rfl
    | refused r => rfl

theorem runOrder_withRequests (es : List Element) (s : State) (q0 q1 : List Word) (ts : List Turn) :
    runOrder es (s.withRequests q0 q1 ts) = Result.withRequests q0 q1 ts (runOrder es s) := by
  induction es generalizing s with
  | nil => rfl
  | cons e es ih =>
    simp only [runOrder, apply_withRequests]
    cases s.apply e with
    | next t => exact ih t
    | fault f => rfl
    | refused r => rfl

/-! ### Either requester may be next -/

theorem execWord_responses {s u : State} {w : Word} (h : s.execWord w = .next u) : u.responses = s.responses := by
  rcases execWord_cases h with ⟨i, -, hi⟩ | ⟨why, -, rfl⟩
  · obtain ⟨⟨-, -, -, -, hresp, -⟩, -⟩ := commandWritesOnlyItsUnit i s u hi
    exact hresp
  · rfl

/-- Serving `k` where the state with the turn and `k`'s outstanding word `w` used up differs from `s` only in the requests:
`w` is answered as it is on `s`, and the requests stay as they were left. -/
theorem step_serve {s : State} (h : s.Inv) {k : Requester} {w : Word} {q0 q1 : List Word} {ts : List Turn}
    (hn : s.nextElement = .element (.command k w) (s.withRequests q0 q1 ts)) :
    ∃ t r, step s = .next t ∧ t.turns = ts ∧ t.req0 = q0 ∧ t.req1 = q1 ∧ t.responses = s.responses ++ [(k, r)] ∧
      ∃ u, s.execWord w = .next u ∧ u.rsp = some r := by
  obtain ⟨u, hu⟩ := execWord_total h w
  obtain ⟨r, hr⟩ := execWord_rsp hu
  have hstep : step s = .next ((u.deliver k).withRequests q0 q1 ts) := by
    rw [step_of_nextElement hn, apply_withRequests, State.apply, hu]
    rfl
  refine ⟨_, r, hstep, rfl, rfl, rfl, ?_, u, hu, hr⟩
  rw [deliver_some hr, ← execWord_responses hu]
  rfl

/-- Settles O12: the two turns differ only in which queue loses its head. -/
theorem eitherRequesterMayBeNext : Obligations.EitherRequesterMayBeNext := by
  intro s w0 w1 ws0 ws1 h h0 h1
  constructor
  · intro ts ht
    have hn : s.nextElement = .element (.command .producer w0) (s.withRequests ws0 (w1 :: ws1) ts) := by
      rw [nextElement_serve ht h0, ← h1]
      rfl
    exact step_serve h hn
  · intro ts ht
    have hn : s.nextElement = .element (.command .consumer w1) (s.withRequests (w0 :: ws0) ws1 ts) := by
      rw [nextElement_serve ht h1, ← h0]
      rfl
    exact step_serve h hn

/-! ### A run of the machine is a run of the order -/

/-- The turn with which an element waits when nothing outstanding is lost to a reset. -/
def Element.turn : Element → Turn
  | .command k _ => .serve k
  | .reset => .reset false false

/-- The words that a sequence puts into the queue of requester `k`, in order (R48). -/
def wordsOf (k : Requester) : List Element → List Word
  | [] => []
  | .command k' w :: es => if k' = k then w :: wordsOf k es else wordsOf k es
  | .reset :: es => wordsOf k es

/-- A whole sequence still to come: its turns in the block's order, each word in its requester's queue. -/
theorem enqueueAll_eq (es : List Element) (s : State) :
    s.enqueueAll es = s.withRequests (s.req0 ++ wordsOf .producer es) (s.req1 ++ wordsOf .consumer es)
      (s.turns ++ es.map Element.turn) := by
  induction es generalizing s with
  | nil => simp [State.enqueueAll, State.withRequests, wordsOf]
  | cons e es ih =>
    have hcons : s.enqueueAll (e :: es) = (s.enqueue e).enqueueAll es := rfl
    rw [hcons, ih]
    match e with
    | .command .producer w | .command .consumer w | .reset =>
      simp [State.enqueue, State.setQueue, State.queue, State.withRequests, wordsOf, Element.turn]

/-- With a sequence still to come, its first element is next. -/
theorem nextElement_waiting (e : Element) (es : List Element) (s : State) :
    (s.withRequests (wordsOf .producer (e :: es)) (wordsOf .consumer (e :: es)) ((e :: es).map Element.turn)).nextElement =
      .element e (s.withRequests (wordsOf .producer es) (wordsOf .consumer es) (es.map Element.turn)) := by
  match e with
  | .command .producer w | .command .consumer w | .reset => rfl

theorem core_step : Host.Core.step Sys2Proof.core = step := rfl

/-- The machine, with a sequence still to come and a step for each element, does the elements one after the other. -/
theorem run_waiting (es : List Element) (s : State) :
    Host.Core.run Sys2Proof.core es.length
        (s.withRequests (wordsOf .producer es) (wordsOf .consumer es) (es.map Element.turn)) =
      Result.withRequests [] [] [] (runOrder es s) := by
  induction es generalizing s with
  | nil => rfl
  | cons e es ih =>
    have hstep := (step_of_nextElement (nextElement_waiting e es s)).trans (apply_withRequests s e _ _ _)
    simp only [List.length_cons, Host.Core.run, runOrder]
    rw [core_step, hstep]
    cases s.apply e with
    | next t => exact ih t
    | fault f => rfl
    | refused r => rfl

/-- Settles O13: the machine's run from the sequence still to come is the order's run, and in an idle state what is left to come
is nothing, as before. -/
theorem runIsTheBlocksOrder : Obligations.RunIsTheBlocksOrder := by
  intro es s hturns h0 h1
  have hidle : s.withRequests [] [] [] = s := by
    simpa only [hturns, h0, h1] using withRequests_self s
  have henq : s.enqueueAll es = s.withRequests (wordsOf .producer es) (wordsOf .consumer es) (es.map Element.turn) := by
    rw [enqueueAll_eq, hturns, h0, h1]
    rfl
  rw [henq, run_waiting, ← runOrder_withRequests, hidle]

/-! ### Repetition -/

/-- When a command reports an error, cause by cause (R156); no command reports `ILLEGAL`. -/
def Error.CausedBy (i : Instr) (s : State) : Error → Prop
  | .overflow => (∃ d, i = .fifoPush d) ∧ s.fifoCount = s.params.fifoN
  | .underflow => i = .fifoPop ∧ s.fifoCount = 0
  | .seqErr => (i = .encStart ∧ s.encActive = true) ∨ (((∃ d, i = .encData d) ∨ i = .encEnd) ∧ s.encActive = false)
  | .illegal => False

/-- A command whose error has its cause raises it. -/
theorem exec_of_causedBy {e : Error} {i : Instr} {s : State} (h : e.CausedBy i s) : exec i s = s.raise e := by
  cases e with
  | overflow =>
    obtain ⟨⟨d, rfl⟩, hfull⟩ := h
    exact execFifoPush_full hfull d
  | underflow =>
    obtain ⟨rfl, hempty⟩ := h
    exact execFifoPop_empty hempty
  | seqErr =>
    rcases h with ⟨rfl, hopen⟩ | ⟨⟨d, rfl⟩ | rfl, hidle⟩
    · exact execEncStart_open hopen
    · exact execEncData_idle hidle d
    · exact execEncEnd_idle hidle
  | illegal => exact h.elim

/-- Only a cause of R156 makes a command return an error. -/
theorem causedBy_of_isError {i : Instr} {s t : State} {r : Response} (h : exec i s = .next t) (hr : t.rsp = some r)
    (he : r.status.isError = true) : ∃ e : Error, e.CausedBy i s := by
  cases i with
  | encStart =>
    cases ha : s.encActive with
    | true => exact ⟨.seqErr, .inl ⟨rfl, ha⟩⟩
    | false =>
      cases (execEncStart_idle ha).symm.trans h
      cases hr
      cases he
  | encData d =>
    cases ha : s.encActive with
    | true =>
      cases (execEncData_open ha d).symm.trans h
      cases hr
      cases he
    | false => exact ⟨.seqErr, .inr ⟨.inl ⟨d, rfl⟩, ha⟩⟩
  | encEnd =>
    cases ha : s.encActive with
    | true =>
      cases (execEncEnd_open ha).symm.trans h
      cases hr
      cases he
    | false => exact ⟨.seqErr, .inr ⟨.inr rfl, ha⟩⟩
  | parPush d =>
    cases h
    cases hr
    rcases parseStep_status s d with ⟨hs, -⟩ | hs <;> simp [hs, Status.isError] at he
  | fifoPush d =>
    rcases execFifoPush_cases h with ⟨hfull, -⟩ | ⟨-, -, rfl⟩
    · exact ⟨.overflow, ⟨d, rfl⟩, hfull⟩
    · cases hr
      cases he
  | fifoPop =>
    rcases execFifoPop_cases h with ⟨hempty, -⟩ | ⟨-, -, rfl⟩
    · exact ⟨.underflow, rfl, hempty⟩
    · cases hr
      cases he
  | crcInit | crcUpdate d | crcRead | parReset | fifoEmpty | fifoFull | fifoSize | fifoCapacity =>
    cases h
    cases hr
    cases he

/-- A command that raised an error raises it again: the error wrote no field that its cause is about. -/
theorem exec_again_of_causedBy {e : Error} {i : Instr} {s t : State} (hc : e.CausedBy i s) (h : exec i s = .next t) :
    exec i t = .next t := by
  cases (exec_of_causedBy hc).symm.trans h
  have hc' : e.CausedBy i { s with rsp := some ⟨e.status, 0, []⟩ } := by
    cases e <;> exact hc
  exact exec_of_causedBy hc'

/-- Settles O24: the commands of R50's list write constants or nothing but their response, and an error wrote nothing its cause
is about. -/
theorem repetitionChangesNothing : Obligations.RepetitionChangesNothing := by
  intro i s t h hi
  rcases hi with hlist | ⟨r, hr, he⟩
  · simp only [List.mem_cons, List.not_mem_nil, or_false] at hlist
    rcases hlist with rfl | rfl | rfl | rfl | rfl | rfl | rfl <;> (cases h; rfl)
  · obtain ⟨e, hc⟩ := causedBy_of_isError h hr he
    exact exec_again_of_causedBy hc h

/-! ### Runs of commands -/

theorem legalInstr_eq_some {w : Word} {i : Instr} : legalInstr w = some i ↔ decode w = .command i := by
  unfold legalInstr
  cases decode w <;> simp

/-- A command word that completes did what its command does, or was answered `ILLEGAL`, as `instr?` says of the element. -/
theorem execWord_instr? {k : Requester} {w : Word} {s u : State} (h : s.execWord w = .next u) :
    (∃ i, (Element.command k w).instr? = some i ∧ exec i s = .next u) ∨
    ((Element.command k w).instr? = none ∧ u = { s with rsp := some ⟨.illegal, 0, []⟩ }) := by
  rcases execWord_cases h with ⟨i, hi, hu⟩ | ⟨why, hw, hu⟩
  · exact .inl ⟨i, legalInstr_eq_some.2 hi, hu⟩
  · refine .inr ⟨?_, hu⟩
    simp [Element.instr?, legalInstr, hw]

/-- The state in which the response `r` has been handed to `k` (R155). -/
def State.answered (s : State) (k : Requester) (r : Response) : State :=
  { s with responses := s.responses ++ [(k, r)] }

/-- From `s` the commands `es` of both requesters run to `t` and are answered by `rs`, one response each (R52, R64). -/
inductive CommandRun : State → List Element → List (Requester × Response) → State → Prop
  | nil (s : State) : CommandRun s [] [] s
  | cons {s u t : State} {k : Requester} {w : Word} {r : Response} {es : List Element} {rs : List (Requester × Response)}
      (hexec : s.execWord w = .next u) (hrsp : u.rsp = some r) (hrest : CommandRun (u.answered k r) es rs t) :
      CommandRun s (.command k w :: es) ((k, r) :: rs) t

theorem CommandRun.length_eq {s t : State} {es : List Element} {rs : List (Requester × Response)}
    (h : CommandRun s es rs t) : rs.length = es.length := by
  induction h with
  | nil => rfl
  | cons _ _ _ ih => exact congrArg (· + 1) ih

/-- A reset-free run is a run of commands, and what it answered is what `responsesSince` reads off. -/
theorem commandRun_of_runOrder {es : List Element} {s t : State} (hn : NoReset es) (h : runOrder es s = .next t) :
    CommandRun s es (responsesSince s t) t := by
  suffices hex : ∃ rs, t.responses = s.responses ++ rs ∧ CommandRun s es rs t by
    obtain ⟨rs, hrs, hrun⟩ := hex
    rwa [responsesSince, hrs, List.drop_left]
  induction es generalizing s with
  | nil =>
    cases h
    exact ⟨[], (List.append_nil _).symm, .nil _⟩
  | cons e es ih =>
    obtain ⟨he, hes⟩ : Element.reset ≠ e ∧ NoReset es := by simpa [NoReset] using hn
    obtain ⟨v, hv, ht⟩ := (runOrder_cons e es s t).1 h
    cases e with
    | reset => exact absurd rfl he
    | command k w =>
      obtain ⟨u, r, hu, hr, rfl⟩ := apply_command.1 hv
      obtain ⟨rs, hrs, hrun⟩ := ih hes ht
      refine ⟨(k, r) :: rs, ?_, .cons hu hr hrun⟩
      rw [hrs, execWord_responses hu, List.append_assoc, List.singleton_append]

/-! ### What the commands of a run were given and answered -/

theorem pushedBytes_cons_push {e : Element} {d : Byte} (h : e.instr? = some (.fifoPush d)) (es : List Element)
    (p : Requester × Response) (rs : List (Requester × Response)) :
    pushedBytes (e :: es) (p :: rs) = (if p.2.status = .ok then [d] else []) ++ pushedBytes es rs := by
  by_cases hp : p.2.status = .ok <;> simp [pushedBytes, commandsWith, h, hp]

theorem pushedBytes_cons_other {e : Element} (h : ∀ d, e.instr? ≠ some (.fifoPush d)) (es : List Element)
    (p : Requester × Response) (rs : List (Requester × Response)) :
    pushedBytes (e :: es) (p :: rs) = pushedBytes es rs := by
  simp only [pushedBytes, commandsWith, List.zipWith_cons_cons]
  rw [List.filterMap_cons_none]
  split
  · next d hd => exact absurd hd (h d)
  · rfl

theorem poppedBytes_cons_pop {e : Element} (h : e.instr? = some .fifoPop) (es : List Element)
    (p : Requester × Response) (rs : List (Requester × Response)) :
    poppedBytes (e :: es) (p :: rs) = (if p.2.status = .ok then [lsbOf p.2.value] else []) ++ poppedBytes es rs := by
  by_cases hp : p.2.status = .ok <;> simp [poppedBytes, commandsWith, h, hp]

theorem poppedBytes_cons_other {e : Element} (h : e.instr? ≠ some .fifoPop) (es : List Element)
    (p : Requester × Response) (rs : List (Requester × Response)) :
    poppedBytes (e :: es) (p :: rs) = poppedBytes es rs := by
  simp only [poppedBytes, commandsWith, List.zipWith_cons_cons]
  rw [List.filterMap_cons_none]
  split
  · next hd => exact absurd hd h
  · rfl

theorem parBytes_cons_push {e : Element} {d : Byte} (h : e.instr? = some (.parPush d)) (es : List Element) :
    parBytes (e :: es) = d :: parBytes es := by
  simp [parBytes, h]

theorem parBytes_cons_other {e : Element} (h : ∀ d, e.instr? ≠ some (.parPush d)) (es : List Element) :
    parBytes (e :: es) = parBytes es := by
  unfold parBytes
  rw [List.filterMap_cons_none]
  split
  · next d hd => exact absurd hd (h d)
  · rfl

theorem unitInstrs_cons_own {u : BlockUnit} {e : Element} {i : Instr} (h : e.instr? = some i) (hu : i.unit = u)
    (es : List Element) : unitInstrs u (e :: es) = i :: unitInstrs u es := by
  simp [unitInstrs, h, hu, Option.filter]

theorem unitInstrs_cons_other {u : BlockUnit} {e : Element} (h : ∀ i, e.instr? = some i → i.unit ≠ u)
    (es : List Element) : unitInstrs u (e :: es) = unitInstrs u es := by
  unfold unitInstrs
  rw [List.filterMap_cons_none]
  simpa [Option.filter_eq_none_iff] using h

theorem unitResponses_cons_own {u : BlockUnit} {e : Element} {i : Instr} (h : e.instr? = some i) (hu : i.unit = u)
    (es : List Element) (p : Requester × Response) (rs : List (Requester × Response)) :
    unitResponses u (e :: es) (p :: rs) = p.2 :: unitResponses u es rs := by
  simp [unitResponses, commandsWith, h, hu]

theorem unitResponses_cons_other {u : BlockUnit} {e : Element} (h : ∀ i, e.instr? = some i → i.unit ≠ u)
    (es : List Element) (p : Requester × Response) (rs : List (Requester × Response)) :
    unitResponses u (e :: es) (p :: rs) = unitResponses u es rs := by
  simp only [unitResponses, commandsWith, List.zipWith_cons_cons]
  rw [List.filterMap_cons_none]
  split
  · next i hi => simpa using h i hi
  · rfl

/-! ### The ring is a queue -/

theorem fifoContents_congr {s t : State} (hp : t.params = s.params) (hr : t.resets = s.resets) (h : SameFifo s t) :
    t.fifoContents = s.fifoContents := by
  obtain ⟨-, htail, hcount, hmem⟩ := h
  unfold State.fifoContents
  rw [htail, hcount, hp]
  exact List.map_congr_left fun k _ => cell_congr hr.symm (hmem _)

theorem fifoContents_eq_nil {s : State} (h : s.fifoCount = 0) : s.fifoContents = [] := by
  simp [State.fifoContents, h]

/-- Two places of the queue are two cells of the ring. -/
theorem slot_ne {n tail k c : Nat} (hk : k < c) (hc : c < n) : (tail + k) % n ≠ (tail + c) % n := by
  intro h
  have hmod : k ≡ c [MOD n] := Nat.ModEq.add_left_cancel' tail h
  exact Nat.ne_of_lt hk (hmod.eq_of_lt_of_lt (Nat.lt_trans hk hc) hc)

/-- A push with room writes the one cell past the newest byte. -/
theorem execFifoPush_contents {d : Byte} {s t : State} (h : s.Inv) (hroom : s.fifoCount ≠ s.params.fifoN)
    (ht : execFifoPush d s = .next t) : t.fifoContents = s.fifoContents ++ [d] := by
  cases (execFifoPush_room hroom h.head_lt d).symm.trans ht
  have hlt : s.fifoCount < s.params.fifoN := Nat.lt_of_le_of_ne h.count_le hroom
  simp only [State.fifoContents, List.range_succ, List.map_append, List.map_cons, List.map_nil]
  congr 1
  · refine List.map_congr_left fun k hk => ?_
    have hne : (s.fifoTail + k) % s.params.fifoN ≠ s.fifoHead := by
      rw [h.head_eq]
      exact slot_ne (List.mem_range.1 hk) hlt
    refine cell_congr (s₁ := s) ?_ ?_
    · rfl
    · exact Memory.read?_write_other _ _ hne
  · rw [← h.head_eq]
    exact congrArg (· :: []) (cell_of_read? (Memory.read?_write_self _ _ _))

/-- A pop of a held byte takes the oldest one off and returns it. -/
theorem execFifoPop_contents {s t : State} (h : s.Inv) (hheld : s.fifoCount ≠ 0) (ht : execFifoPop s = .next t) :
    ∃ b, s.fifoContents = b :: t.fifoContents ∧ t.rsp = some ⟨.ok, zext16 b, []⟩ := by
  cases (execFifoPop_held hheld h.tail_lt).symm.trans ht
  refine ⟨s.cell s.fifoTail, ?_, rfl⟩
  obtain ⟨n, hn⟩ := Nat.exists_eq_succ_of_ne_zero hheld
  simp only [State.fifoContents, hn, List.range_succ_eq_map, List.map_cons, List.map_map, Nat.add_zero,
    Nat.mod_eq_of_lt h.tail_lt, Nat.succ_sub_one]
  refine congrArg _ (List.map_congr_left fun k _ => ?_)
  change s.cell ((s.fifoTail + (k + 1)) % s.params.fifoN) = s.cell ((s.advance s.fifoTail + k) % s.params.fifoN)
  rw [advance_add_mod]

/-- Only a push and a pop change what the FIFO holds. -/
theorem exec_contents_of_other {i : Instr} {s t : State} (h : exec i s = .next t) (hpush : ∀ d, i ≠ .fifoPush d)
    (hpop : i ≠ .fifoPop) : t.fifoContents = s.fifoContents := by
  obtain ⟨⟨hparams, -, -, -, -, hresets⟩, hframe⟩ := commandWritesOnlyItsUnit i s t h
  have hfifo : SameFifo s t := by
    cases i with
    | fifoPush d => exact absurd rfl (hpush d)
    | fifoPop => exact absurd rfl hpop
    | fifoEmpty | fifoFull | fifoSize | fifoCapacity =>
      cases h
      exact sameUnit_refl .fifo s
    | crcInit | crcUpdate d | crcRead | encStart | encData d | encEnd | parPush d | parReset =>
      exact hframe .fifo nofun
  exact fifoContents_congr hparams hresets hfifo

theorem lsbOf_zext16 (b : Byte) : lsbOf (zext16 b) = b := by
  ext j hj
  simp [lsbOf, zext16, hj, Nat.lt_trans hj (by decide : 8 < 16)]

/-- Over any run of commands, what was held and then what was pushed is what was popped and then what is held (R137). -/
theorem CommandRun.fifo_order {s t : State} {es : List Element} {rs : List (Requester × Response)}
    (h : CommandRun s es rs t) (hinv : s.Inv) :
    s.fifoContents ++ pushedBytes es rs = poppedBytes es rs ++ t.fifoContents := by
  induction h with
  | nil s => exact List.append_nil _
  | @cons s u t k w r es rs hexec hrsp _ ih =>
    have hrest := ih ((execWord_inv hinv hexec).with_others ..)
    rw [show (u.answered k r).fifoContents = u.fifoContents from rfl] at hrest
    rcases execWord_instr? (k := k) hexec with ⟨i, hi, hu⟩ | ⟨hnone, rfl⟩
    · cases i with
      | fifoPush d =>
        rw [pushedBytes_cons_push hi, poppedBytes_cons_other (by simp [hi]), ← hrest]
        by_cases hfull : s.fifoCount = s.params.fifoN
        · cases (execFifoPush_full hfull d).symm.trans hu
          cases hrsp
          rfl
        · rw [execFifoPush_contents hinv hfull hu]
          cases (execFifoPush_room hfull hinv.head_lt d).symm.trans hu
          cases hrsp
          simp
      | fifoPop =>
        rw [pushedBytes_cons_other (by simp [hi]), poppedBytes_cons_pop hi, List.append_assoc, ← hrest]
        by_cases hempty : s.fifoCount = 0
        · cases (execFifoPop_empty hempty).symm.trans hu
          cases hrsp
          rfl
        · obtain ⟨b, hb, hub⟩ := execFifoPop_contents hinv hempty hu
          cases hub.symm.trans hrsp
          simp [hb, lsbOf_zext16]
      | _ =>
        rw [pushedBytes_cons_other (by simp [hi]), poppedBytes_cons_other (by simp [hi]), ← hrest,
          exec_contents_of_other hu nofun nofun]
    · rw [pushedBytes_cons_other (by simp [hnone]), poppedBytes_cons_other (by simp [hnone]), ← hrest]
      rfl

/-! ### The parser over a sequence of bytes -/

/-- The response to a byte that completes no frame (R105). -/
def silent : Response := ⟨.none, 0, []⟩

/-- The parser fed byte by byte: the state after the bytes, and the response to each of them (R105, R115). -/
def parserFeed (s : State) : List Byte → State × List Response
  | [] => (s, [])
  | b :: bs =>
    let step := parseStep s b
    let rest := parserFeed step.1 bs
    (rest.1, ⟨step.2.1, 0, step.2.2⟩ :: rest.2)

theorem parserFeed_append (s : State) (bs cs : List Byte) :
    parserFeed s (bs ++ cs) =
      ((parserFeed (parserFeed s bs).1 cs).1, (parserFeed s bs).2 ++ (parserFeed (parserFeed s bs).1 cs).2) := by
  induction bs generalizing s with
  | nil => rfl
  | cons b bs ih => simp [parserFeed, ih]

/-- A byte of a frame's body is appended, whether it came escaped or not (R90, R111, R112). -/
theorem parserFeed_escape {s : State} (hs : s.parState = .inFrame) (hroom : s.params.parBufMax ≠ some s.parBuf.length)
    (b : Byte) :
    parserFeed s (escape b) =
      ({ s with parBuf := s.parBuf ++ [b], parState := .inFrame }, List.replicate (escape b).length silent) := by
  cases hb : isReserved b with
  | true =>
    have hxor : b ^^^ escXor ^^^ escXor = b := by rw [BitVec.xor_assoc, BitVec.xor_self, BitVec.xor_zero]
    rw [escape_reserved hb]
    simp only [parserFeed, parseStep_inFrame_esc hs]
    rw [parseStep_inEscape (by rfl), hxor, parAppend_room (by exact hroom)]
    rfl
  | false =>
    obtain ⟨-, hetx, hesc⟩ : b ≠ stx ∧ b ≠ etx ∧ b ≠ esc := by
      simpa [hb] using isReserved_iff b
    rw [escape_plain hb]
    simp only [parserFeed, parseStep_inFrame_data hs hesc hetx, parAppend_room hroom]
    rfl

/-- The escaped bytes of a body that fits the buffer are appended, and none of them is answered with a frame. -/
theorem parserFeed_body {s : State} (hs : s.parState = .inFrame) (q : List Byte)
    (hfit : ∀ m, s.params.parBufMax = some m → s.parBuf.length + q.length ≤ m) :
    parserFeed s (q.flatMap escape) =
      ({ s with parBuf := s.parBuf ++ q, parState := .inFrame }, List.replicate (q.flatMap escape).length silent) := by
  induction q generalizing s with
  | nil => simp [parserFeed, ← hs]
  | cons b q ih =>
    have hroom : s.params.parBufMax ≠ some s.parBuf.length := by
      intro hm
      have := hfit _ hm
      simp at this
    have hfit' : ∀ m, s.params.parBufMax = some m → (s.parBuf ++ [b]).length + q.length ≤ m := by
      intro m hm
      have := hfit m hm
      simp only [List.length_append, List.length_cons, List.length_nil] at this ⊢
      omega
    rw [List.flatMap_cons, parserFeed_append, parserFeed_escape hs hroom b]
    rw [ih (s := { s with parBuf := s.parBuf ++ [b], parState := .inFrame }) rfl hfit']
    simp

theorem wordOfBytes_msbOf_lsbOf (w : Word) : wordOfBytes (msbOf w) (lsbOf w) = w := by
  apply BitVec.eq_of_toNat_eq
  have h256 : (256 : Word).toNat = 256 := rfl
  simp only [wordOfBytes, zext16, msbOf, lsbOf, BitVec.toNat_add, BitVec.toNat_mul, BitVec.toNat_setWidth,
    BitVec.extractLsb'_toNat, Nat.shiftRight_eq_div_pow, h256]
  omega

/-- A frame is STX, the escaped payload and CRC, and ETX (R91). -/
theorem encodeFrame_eq (p : List Byte) :
    encodeFrame p = stx :: ((p ++ [msbOf (computeCRC16 p), lsbOf (computeCRC16 p)]).flatMap escape ++ [etx]) := by
  simp [encodeFrame, frameTail]

/-- The parser returns a frame's payload at its last byte and nothing before (R122). -/
theorem parserFeed_encodeFrame {s : State} (hs : s.parState = .waitStart) (p : List Byte)
    (hfit : ∀ m, s.params.parBufMax = some m → p.length + 2 ≤ m) :
    parserFeed s (encodeFrame p) =
      ({ s with parBuf := [], parState := .waitStart },
        List.replicate ((encodeFrame p).length - 1) silent ++ [⟨.frame, 0, p⟩]) := by
  have hetx : parseStep { s with parBuf := p ++ [msbOf (computeCRC16 p), lsbOf (computeCRC16 p)], parState := .inFrame } etx =
      ({ s with parBuf := [], parState := .waitStart }, .frame, p) := by
    rw [parseStep_inFrame_etx (by rfl)]
    simp only [parFinalize, validPayload_append, wordOfBytes_msbOf_lsbOf, if_true]
  rw [encodeFrame_eq, parserFeed, parseStep_waitStart_stx hs]
  dsimp only
  rw [parserFeed_append, parserFeed_body (by rfl) _ (by simpa using hfit)]
  simp only [parserFeed, List.nil_append, hetx, List.length_cons, List.length_append, List.length_nil, Nat.zero_add,
    Nat.add_sub_cancel, List.replicate_succ, List.cons_append]
  rfl

/-- What the parser does with a byte it is fed by a command, in a state with another parser state like it. -/
theorem execParPush_parser {d : Byte} {s s' u : State} (hp : s'.params = s.params) (h : SameParser s' s)
    (hu : execParPush d s = .next u) :
    u.rsp = some ⟨(parseStep s' d).2.1, 0, (parseStep s' d).2.2⟩ ∧ u.params = (parseStep s' d).1.params ∧
      SameParser (parseStep s' d).1 u := by
  obtain ⟨hout, hstate, hbuf⟩ := parseStep_congr hp h.1.symm h.2.symm d
  have hparams : u.params = (parseStep s' d).1.params := by
    rw [exec_params (i := .parPush d) hu, parseStep_shape s' d, hp]
  cases hu
  exact ⟨by rw [hout], hparams, hstate.symm, hbuf.symm⟩

/-- Over a run whose parser commands are pushes of `bs`, the parser answers as when it is fed `bs` with nothing between (R122). -/
theorem CommandRun.parser_feed {s t : State} {es : List Element} {rs : List (Requester × Response)}
    (h : CommandRun s es rs t) {bs : List Byte} (hbs : unitInstrs .parser es = bs.map Instr.parPush) {s' : State}
    (hp : s'.params = s.params) (hs : SameParser s' s) :
    unitResponses .parser es rs = (parserFeed s' bs).2 ∧ SameParser (parserFeed s' bs).1 t := by
  induction h generalizing bs s' with
  | nil s =>
    obtain rfl : bs = [] := List.map_eq_nil_iff.1 hbs.symm
    exact ⟨rfl, hs⟩
  | @cons s u t k w r es rs hexec hrsp _ ih =>
    rcases execWord_instr? (k := k) hexec with ⟨i, hi, hu⟩ | ⟨hnone, rfl⟩
    · by_cases hunit : i.unit = .parser
      · rw [unitInstrs_cons_own hi hunit] at hbs
        rw [unitResponses_cons_own hi hunit]
        cases bs with
        | nil => cases hbs
        | cons d bs =>
          obtain ⟨rfl, htail⟩ := List.cons.inj hbs
          obtain ⟨hur, hup, hus⟩ := execParPush_parser hp hs hu
          obtain ⟨hresp, hend⟩ := ih (s' := (parseStep s' d).1) htail hup.symm hus
          cases hur.symm.trans hrsp
          exact ⟨congrArg _ hresp, hend⟩
      · rw [unitInstrs_cons_other (by simpa [hi] using hunit)] at hbs
        rw [unitResponses_cons_other (by simpa [hi] using hunit)]
        have hsame : SameParser s u := (commandWritesOnlyItsUnit i s u hu).2 .parser (Ne.symm hunit)
        exact ih hbs (hp.trans (exec_params hu).symm) ⟨hsame.1.trans hs.1, hsame.2.trans hs.2⟩
    · rw [unitInstrs_cons_other (by simp [hnone])] at hbs
      rw [unitResponses_cons_other (by simp [hnone])]
      exact ih hbs hp hs

/-! ### The requesters of the source -/

/-- A producer of the source goes on only by a push (R167). -/
theorem producerAsInSource_producer {stopped : Bool} {w : Word} {r : Response} {rest : List (Element × Response)}
    (h : producerAsInSource stopped ((.command .producer w, r) :: rest) = true) :
    ∃ d stopped', legalInstr w = some (.fifoPush d) ∧ producerAsInSource stopped' rest = true := by
  simp only [producerAsInSource] at h
  split at h
  · next d hd => exact ⟨d, _, hd, (Bool.and_eq_true_iff.1 h).2⟩
  · cases h

/-- A consumer of the source goes on by a pop with nothing left to feed, by feeding the byte it got, or by encoding (R167). -/
theorem consumerAsInSource_consumer {got : Option Byte} {w : Word} {r : Response} {rest : List (Element × Response)}
    (h : consumerAsInSource got ((.command .consumer w, r) :: rest) = true) :
    (legalInstr w = some .fifoPop ∧ got = none ∧
      consumerAsInSource (if r.status = .ok then some (lsbOf r.value) else none) rest = true) ∨
    (∃ d, legalInstr w = some (.parPush d) ∧ got = some d ∧ consumerAsInSource none rest = true) ∨
    (∃ i, legalInstr w = some i ∧ i.unit = .encoder ∧ consumerAsInSource got rest = true) := by
  simp only [consumerAsInSource] at h
  split at h
  · next hw => exact .inl ⟨hw, rfl, by simpa using h⟩
  · next d b hw =>
    obtain ⟨hd, hrest⟩ := Bool.and_eq_true_iff.1 h
    exact .inr (.inl ⟨d, hw, congrArg some (eq_of_beq hd).symm, hrest⟩)
  · next hw => exact .inr (.inr ⟨_, hw, rfl, h⟩)
  · next hw => exact .inr (.inr ⟨_, hw, rfl, h⟩)
  · next hw => exact .inr (.inr ⟨_, hw, rfl, h⟩)
  · cases h

/-- What two requesters of the source do, from a point where the consumer has `got` still to feed: the parser is fed that byte
and then what is popped, and is given no other command. -/
theorem sourceRequesters_feed {es : List Element} {rs : List (Requester × Response)} {stopped : Bool} {got : Option Byte}
    (hlen : rs.length = es.length) (hprod : producerAsInSource stopped (es.zip (rs.map Prod.snd)) = true)
    (hcons : consumerAsInSource got (es.zip (rs.map Prod.snd)) = true) :
    parBytes es = got.toList ++ poppedBytes es rs ∧ unitInstrs .parser es = (parBytes es).map Instr.parPush := by
  induction es generalizing rs stopped got with
  | nil =>
    obtain rfl : rs = [] := List.length_eq_zero_iff.1 hlen
    obtain rfl : got = none := Option.isNone_iff_eq_none.1 hcons
    exact ⟨rfl, rfl⟩
  | cons e es ih =>
    cases rs with
    | nil => cases hlen
    | cons p rs =>
      have hlen' : rs.length = es.length := Nat.succ.inj hlen
      match e with
      | .reset => cases hprod
      | .command .producer w =>
        obtain ⟨d, stopped', hw, hprod'⟩ := producerAsInSource_producer hprod
        have hi : (Element.command .producer w).instr? = some (.fifoPush d) := hw
        rw [parBytes_cons_other (by simp [hi]), poppedBytes_cons_other (by simp [hi]),
          unitInstrs_cons_other (by simp [hi, Instr.unit, Instr.mnemonic, Mnemonic.unit])]
        exact ih hlen' hprod' hcons
      | .command .consumer w =>
        rcases consumerAsInSource_consumer hcons with ⟨hw, rfl, hcons'⟩ | ⟨d, hw, rfl, hcons'⟩ | ⟨i, hw, hunit, hcons'⟩
        · have hi : (Element.command .consumer w).instr? = some .fifoPop := hw
          obtain ⟨hfed, hinstrs⟩ := ih hlen' hprod hcons'
          rw [parBytes_cons_other (by simp [hi]), poppedBytes_cons_pop hi,
            unitInstrs_cons_other (by simp [hi, Instr.unit, Instr.mnemonic, Mnemonic.unit])]
          refine ⟨?_, hinstrs⟩
          rw [hfed]
          split <;> rfl
        · have hi : (Element.command .consumer w).instr? = some (.parPush d) := hw
          obtain ⟨hfed, hinstrs⟩ := ih hlen' hprod hcons'
          rw [parBytes_cons_push hi, poppedBytes_cons_other (by simp [hi]), unitInstrs_cons_own (u := .parser) hi rfl]
          exact ⟨congrArg _ hfed, congrArg _ hinstrs⟩
        · have hi : (Element.command .consumer w).instr? = some i := hw
          have hpar : ∀ d, some i ≠ some (.parPush d) := by
            rintro d ⟨⟩
            cases hunit
          have hpop : some i ≠ some .fifoPop := by
            rintro ⟨⟩
            cases hunit
          rw [parBytes_cons_other (by simpa only [hi] using hpar), poppedBytes_cons_other (by simpa only [hi] using hpop),
            unitInstrs_cons_other (by simp [hi, hunit])]
          exact ih hlen' hprod hcons'

theorem deliveredPayloads_silent (n : Nat) (rs : List Response) :
    deliveredPayloads (List.replicate n silent ++ rs) = deliveredPayloads rs := by
  simp [deliveredPayloads, silent]

/-- Settles O59: the consumer hands on what it pops, the queue keeps the order of the pushes, and the parser returns what the
encoder's frame holds. -/
theorem sourceRequestersPassThePayload : Obligations.SourceRequestersPassThePayload := by
  rintro es s t hinv hempty hwait hn ht ⟨hprod, hcons⟩
  have hrun := commandRun_of_runOrder hn ht
  obtain ⟨hfed, hinstrs⟩ := sourceRequesters_feed hrun.length_eq hprod hcons
  refine ⟨hfed, fun p hfit hend hpushed => ?_⟩
  have horder := hrun.fifo_order hinv
  rw [fifoContents_eq_nil hempty, fifoContents_eq_nil hend, List.append_nil, List.nil_append] at horder
  have hframe : parBytes es = encodeFrame p := by
    rw [hfed, Option.toList_none, List.nil_append, ← horder, hpushed]
  rw [hframe] at hinstrs
  obtain ⟨hresp, -⟩ := hrun.parser_feed hinstrs rfl (sameUnit_refl .parser s)
  rw [hresp, parserFeed_encodeFrame hwait p hfit, deliveredPayloads_silent]
  rfl

end Sys2Proof.Machine
end

section
/-! Proofs of the family 30_encoding: the opcode map and the encoder, the assembler's text, the responses, and `CRC_BLOCK`
(spec/30_encoding.md). -/

namespace Sys2Proof.Machine

/-! ### The high and the low byte of a command word (R58) -/

theorem operandD_toNat (w : Word) : (operandD w).toNat = w.toNat % 256 := by
  simp [operandD]

theorem operandD_eq (w : Word) : operandD w = BitVec.ofNat 8 (w.toNat % 256) := by
  rw [← operandD_toNat, BitVec.ofNat_toNat, BitVec.setWidth_eq]

/-- An operand byte fills a low byte that is zero. -/
theorem or_operand_toNat {p : Word} (hp : p.toNat % 256 = 0) (d : Byte) :
    (p ||| d.setWidth 16).toNat = p.toNat + d.toNat := by
  obtain ⟨q, hq⟩ := Nat.dvd_of_mod_eq_zero hp
  have hd : d.toNat % 2 ^ 16 = d.toNat := Nat.mod_eq_of_lt (by omega)
  rw [BitVec.toNat_or, BitVec.toNat_setWidth, hd, hq]
  exact (Nat.two_pow_add_eq_or_of_lt d.isLt q).symm

/-! ### The rows of the opcode map (R60) -/

/-- The mask of the rows of a format (R59, R60). -/
def Format.mask : Format → Word
  | .B => 0xFF00
  | .Z => 0xFFFF

theorem and_maskB_toNat (w : Word) : (w &&& Format.mask .B).toNat = w.toNat / 256 * 256 := by
  have hshift : w &&& Format.mask .B = w >>> 8 <<< 8 := (BitVec.shiftLeft_ushiftRight (x := w) (n := 8)).symm
  rw [hshift, BitVec.toNat_shiftLeft, BitVec.toNat_ushiftRight, Nat.shiftLeft_eq, Nat.shiftRight_eq_div_pow]
  omega

theorem and_maskZ (w : Word) : w &&& Format.mask .Z = w := BitVec.and_allOnes

/-- The two tables agree: a row's `match` is its mnemonic's opcode, and its mask is its format's. -/
theorem row_eq : ∀ r ∈ opcodeTable, r.pattern = r.mnemonic.opcodeWord ∧ r.mask = Format.mask r.mnemonic.format := by
  decide

theorem exists_row (m : Mnemonic) : ∃ r ∈ opcodeTable, r.mnemonic = m := by
  cases m <;> decide

theorem opcodeWord_low (m : Mnemonic) : m.opcodeWord.toNat % 256 = 0 := by
  cases m <;> rfl

/-- No two rows share `UNIT` and `OP`. -/
theorem row_unique : ∀ r ∈ opcodeTable, ∀ r' ∈ opcodeTable,
    r'.mnemonic.opcodeWord.toNat / 256 = r.mnemonic.opcodeWord.toNat / 256 → r' = r := by
  decide

theorem selects_eq_true {r : OpcodeRow} {w : Word} : r.selects w = true ↔ w &&& r.mask = r.pattern := beq_iff_eq

/-- A row selects the words that have its `UNIT` and `OP` and, for format Z, a zero low byte. -/
theorem selects_iff {r : OpcodeRow} (hr : r ∈ opcodeTable) (w : Word) :
    r.selects w = true ↔ w.toNat / 256 = r.mnemonic.opcodeWord.toNat / 256 ∧
      (r.mnemonic.format = .Z → w.toNat % 256 = 0) := by
  obtain ⟨hpattern, hmask⟩ := row_eq r hr
  have hlow := opcodeWord_low r.mnemonic
  rw [selects_eq_true, hpattern, hmask, ← BitVec.toNat_inj]
  cases r.mnemonic.format with
  | B =>
    rw [and_maskB_toNat]
    simp only [reduceCtorEq, false_implies, and_true]
    omega
  | Z =>
    rw [and_maskZ]
    simp only [true_implies]
    omega

/-- At most one row selects a word. -/
theorem row_eq_of_selects {w : Word} {r r' : OpcodeRow} (hr : r ∈ opcodeTable) (hr' : r' ∈ opcodeTable)
    (hs : r.selects w = true) (hs' : r'.selects w = true) : r' = r := by
  obtain ⟨hw, -⟩ := (selects_iff hr w).1 hs
  obtain ⟨hw', -⟩ := (selects_iff hr' w).1 hs'
  exact row_unique r hr r' hr' (hw'.symm.trans hw)

/-- A word decodes by the row that selects it. -/
theorem decode_of_selects {w : Word} {r : OpcodeRow} (hr : r ∈ opcodeTable) (hs : r.selects w = true) :
    decode w = .command (r.mnemonic.instr (operandD w)) := by
  unfold decode
  cases hf : opcodeTable.find? (fun r => r.selects w) with
  | none => exact absurd hs (List.find?_eq_none.1 hf r hr)
  | some r' =>
    have hs' : r'.selects w = true := by simpa using List.find?_some hf
    rw [row_eq_of_selects hr (List.mem_of_find?_eq_some hf) hs hs']

theorem decode_of_not_selects {w : Word} (h : ∀ r ∈ opcodeTable, ¬ r.selects w = true) :
    decode w = .illegal (illegalReason w) := by
  unfold decode
  rw [List.find?_eq_none.2 h]

theorem decode_eq_command_iff {w : Word} {i : Instr} :
    decode w = .command i ↔ ∃ r ∈ opcodeTable, r.selects w = true ∧ i = r.mnemonic.instr (operandD w) := by
  constructor
  · intro h
    by_contra hnone
    have hno : ∀ r ∈ opcodeTable, ¬ r.selects w = true := by
      intro r hr hs
      rw [decode_of_selects hr hs] at h
      cases h
      exact hnone ⟨r, hr, hs, rfl⟩
    rw [decode_of_not_selects hno] at h
    cases h
  · rintro ⟨r, hr, hs, rfl⟩
    exact decode_of_selects hr hs

theorem decode_illegal_iff {w : Word} :
    (∃ why, decode w = .illegal why) ↔ ∀ r ∈ opcodeTable, ¬ r.selects w = true := by
  constructor
  · rintro ⟨why, h⟩ r hr hs
    rw [decode_of_selects hr hs] at h
    cases h
  · intro h
    exact ⟨_, decode_of_not_selects h⟩

/-! ### Commands and their words (R59, R69) -/

/-- Every command is one of its row, with its operand or, in format Z, with any byte in its place. -/
theorem instr_mnemonic_self (i : Instr) : i.mnemonic.instr (i.operand.getD 0) = i := by
  cases i <;> rfl

theorem instr_of_format_Z {m : Mnemonic} (h : m.format = .Z) (d d' : Byte) : m.instr d = m.instr d' := by
  cases m with
  | crcUpdate | encData | parPush | fifoPush => cases h
  | crcInit | crcRead | encStart | encEnd | parReset | fifoPop | fifoEmpty | fifoFull | fifoSize | fifoCapacity => rfl

/-- The number of a command's word: its opcode, and in format B its operand. -/
theorem encode_instr_toNat (m : Mnemonic) (d : Byte) :
    (encode (m.instr d)).toNat = m.opcodeWord.toNat + if m.format = .B then d.toNat else 0 := by
  cases m with
  | crcUpdate | encData | parPush | fifoPush => exact or_operand_toNat (opcodeWord_low _) d
  | crcInit | crcRead | encStart | encEnd | parReset | fifoPop | fifoEmpty | fifoFull | fifoSize | fifoCapacity => rfl

theorem decode_encode_instr (m : Mnemonic) (d : Byte) : decode (encode (m.instr d)) = .command (m.instr d) := by
  obtain ⟨r, hr, rfl⟩ := exists_row m
  have hword := encode_instr_toNat r.mnemonic d
  have hlow := opcodeWord_low r.mnemonic
  cases hf : r.mnemonic.format with
  | B =>
    rw [if_pos hf] at hword
    have hs : r.selects (encode (r.mnemonic.instr d)) = true :=
      (selects_iff hr _).2 ⟨by omega, by simp [hf]⟩
    have hd : operandD (encode (r.mnemonic.instr d)) = d := by
      apply BitVec.eq_of_toNat_eq
      rw [operandD_toNat]
      omega
    rw [decode_of_selects hr hs, hd]
  | Z =>
    rw [if_neg (by simp [hf])] at hword
    have hs : r.selects (encode (r.mnemonic.instr d)) = true :=
      (selects_iff hr _).2 ⟨by omega, fun _ => by omega⟩
    rw [decode_of_selects hr hs, instr_of_format_Z hf _ d]

@[simp] theorem decode_encode (i : Instr) : decode (encode i) = .command i := by
  rw [← instr_mnemonic_self i]
  exact decode_encode_instr _ _

/-- Settles O2: the word of a command is selected by the row of its mnemonic, and its low byte is the operand. Every command is
well-formed, so the hypothesis is not needed. -/
theorem decodeOfEncodeIsTheCommand : Obligations.DecodeOfEncodeIsTheCommand := fun i _ => decode_encode i

/-- Settles O3: the row that selects the word fixes its high byte, and the low byte is the operand or zero. -/
theorem encodeOfDecodeIsTheWord : Obligations.EncodeOfDecodeIsTheWord := by
  intro w i h
  obtain ⟨r, hr, hs, rfl⟩ := decode_eq_command_iff.1 h
  obtain ⟨hhigh, hZ⟩ := (selects_iff hr w).1 hs
  have hlow := opcodeWord_low r.mnemonic
  apply BitVec.eq_of_toNat_eq
  rw [encode_instr_toNat, operandD_toNat]
  cases hf : r.mnemonic.format with
  | B =>
    rw [if_pos rfl]
    omega
  | Z =>
    have hzero := hZ hf
    rw [if_neg (by decide)]
    omega

/-- Settles O4: the rows differ in `UNIT` and `OP`, which a row that matches fixes, so the decoder's search finds that row. -/
theorem atMostOneRowMatchesAWord : Obligations.AtMostOneRowMatchesAWord := by
  intro w r hr hmatch
  have hs := selects_eq_true.2 hmatch
  refine ⟨?_, fun r' hr' hmatch' => row_eq_of_selects hr hr' hs (selects_eq_true.2 hmatch')⟩
  rw [← operandD_eq]
  exact decode_of_selects hr hs

/-- Settles O1: the fourteen words are those the encoder writes. -/
theorem specWordsDecode : Obligations.SpecWordsDecode :=
  ⟨decode_encode .crcInit, decode_encode (.crcUpdate 0x31), decode_encode .crcRead, decode_encode .encStart,
    decode_encode (.encData 0x02), decode_encode .encEnd, decode_encode (.parPush 0x03), decode_encode .parReset,
    decode_encode (.fifoPush 0x40), decode_encode .fifoPop, decode_encode .fifoEmpty, decode_encode .fifoFull,
    decode_encode .fifoSize, decode_encode .fifoCapacity⟩

/-! ### The illegal words (R61, R62) -/

/-- `UNIT` and `OP` of the rows of a format, as one byte; those of format Z as R62 lists them. -/
def opcodesOf : Format → List Nat
  | .B => [0x11, 0x21, 0x30, 0x40]
  | .Z => [0x10, 0x12, 0x20, 0x22, 0x31, 0x41, 0x42, 0x43, 0x44, 0x45]

theorem row_opcode_mem : ∀ r ∈ opcodeTable, r.mnemonic.opcodeWord.toNat / 256 ∈ opcodesOf r.mnemonic.format := by
  decide

theorem exists_row_of_opcode (f : Format) :
    ∀ h ∈ opcodesOf f, ∃ r ∈ opcodeTable, r.mnemonic.format = f ∧ r.mnemonic.opcodeWord.toNat / 256 = h := by
  cases f <;> decide

theorem opcodesOf_disjoint : ∀ h ∈ opcodesOf .Z, h ∉ opcodesOf .B := by
  decide

/-- A byte that is no row's opcode has a reserved `UNIT` or an unassigned `OP` (R62). -/
theorem no_opcode_iff : ∀ h < 256, (h ∉ opcodesOf .B ∧ h ∉ opcodesOf .Z) ↔
    (h / 16 = 0 ∨ 5 ≤ h / 16 ∨ (h / 16 = 1 ∧ 3 ≤ h % 16) ∨ (h / 16 = 2 ∧ 3 ≤ h % 16) ∨ (h / 16 = 3 ∧ 2 ≤ h % 16) ∨
      (h / 16 = 4 ∧ 6 ≤ h % 16)) := by
  decide +kernel

/-- A word is illegal when its high byte is no format-B opcode, nor a format-Z opcode above a zero low byte. -/
theorem decode_illegal_iff_opcodes {w : Word} :
    (∃ why, decode w = .illegal why) ↔
      w.toNat / 256 ∉ opcodesOf .B ∧ (w.toNat / 256 ∈ opcodesOf .Z → w.toNat % 256 ≠ 0) := by
  rw [decode_illegal_iff]
  constructor
  · intro h
    refine ⟨fun hB => ?_, fun hZ hzero => ?_⟩
    · obtain ⟨r, hr, hf, hop⟩ := exists_row_of_opcode .B _ hB
      exact h r hr ((selects_iff hr w).2 ⟨hop.symm, by simp [hf]⟩)
    · obtain ⟨r, hr, -, hop⟩ := exists_row_of_opcode .Z _ hZ
      exact h r hr ((selects_iff hr w).2 ⟨hop.symm, fun _ => hzero⟩)
  · rintro ⟨hB, hZ⟩ r hr hs
    obtain ⟨hhigh, hlow⟩ := (selects_iff hr w).1 hs
    have hmem := row_opcode_mem r hr
    rw [← hhigh] at hmem
    cases hf : r.mnemonic.format with
    | B => exact hB (hf ▸ hmem)
    | Z => exact hZ (hf ▸ hmem) (hlow hf)

/-- Settles O5: the high byte is no opcode of the map, or one of format Z with a nonzero low byte below it. -/
theorem illegalWordsAreThoseListed : Obligations.IllegalWordsAreThoseListed := by
  intro w
  refine ⟨?_, fun s why h => execWord_illegal h s⟩
  have hreserved := no_opcode_iff (w.toNat / 256) (by omega)
  rw [Nat.div_div_eq_div_mul] at hreserved
  have hunit : (∃ why, decode w = .illegal why) ↔
      (w.toNat / 256 ∉ opcodesOf .B ∧ w.toNat / 256 ∉ opcodesOf .Z) ∨
        (w.toNat / 256 ∈ opcodesOf .Z ∧ w.toNat % 256 ≠ 0) := by
    rw [decode_illegal_iff_opcodes]
    by_cases hZ : w.toNat / 256 ∈ opcodesOf .Z
    · simp [hZ, opcodesOf_disjoint _ hZ]
    · simp [hZ]
  rw [hunit, hreserved]
  simp only [or_assoc]
  rfl

/-- Settles O8: the word is next, it is answered as `raise ILLEGAL`, and the response goes to `k`. -/
theorem illegalWordIsAnsweredIllegal : Obligations.IllegalWordIsAnsweredIllegal := by
  intro s k ts w ws why ht hq hw
  rw [step_of_nextElement (nextElement_serve ht hq), State.apply, execWord_illegal hw, raise_eq, Result.deliver_next,
    deliver_some rfl, setQueue_responses]
  rfl

/-! ### The assembler's text (R69) -/

/-- Does the character stand in a token? It is no blank, no comma and no start of a comment. -/
def isPlain (c : Char) : Bool := c != ';' && c != ' ' && c != '\t' && c != ','

theorem tokens_plain {cs : List Char} (h : cs.all isPlain = true) (tok rest : List Char) :
    tokens tok (cs ++ rest) = tokens (tok ++ cs) rest := by
  induction cs generalizing tok with
  | nil => simp
  | cons c cs ih =>
    simp only [List.all_cons, isPlain, Bool.and_eq_true, bne_iff_ne] at h
    obtain ⟨⟨⟨⟨hcomment, hblank⟩, htab⟩, hcomma⟩, hcs⟩ := h
    rw [List.cons_append, tokens, if_neg hcomment, if_neg (not_or.2 ⟨hblank, htab⟩), if_neg hcomma, ih hcs,
      List.append_assoc, List.singleton_append]

/-- A text of plain characters is one token. -/
theorem tokens_word {cs : List Char} (h : cs.all isPlain = true) (hne : cs ≠ []) : tokens [] cs = [cs] := by
  have htok := tokens_plain h [] []
  rw [List.append_nil] at htok
  rw [htok, tokens, List.nil_append, putToken, if_neg hne]

/-- A blank ends a token. -/
theorem tokens_word_blank {cs : List Char} (h : cs.all isPlain = true) (hne : cs ≠ []) (rest : List Char) :
    tokens [] (cs ++ ' ' :: rest) = cs :: tokens [] rest := by
  rw [tokens_plain h, List.nil_append, tokens, if_neg (by decide), if_pos (.inl rfl), putToken, if_neg hne]

theorem mnemonicText_plain (m : Mnemonic) : (mnemonicText m).all isPlain = true := by
  cases m <;> rfl

theorem mnemonicText_ne_nil (m : Mnemonic) : mnemonicText m ≠ [] := by
  cases m <;> exact List.cons_ne_nil _ _

theorem find_mnemonicText (m : Mnemonic) :
    asmOps.find? (fun o => asmOpText o = mnemonicText m) = some (.command m) := by
  cases m <;> rfl

theorem hexChar_plain : ∀ n < 16, isPlain (hexChar n) = true := by
  decide

theorem hexDigit?_hexChar : ∀ n < 16, hexDigit? (hexChar n) = some n := by
  decide

/-- The operand as `0xHH`. -/
def operandText (d : Byte) : List Char := ['0', 'x', hexChar (d.toNat / 16), hexChar (d.toNat % 16)]

theorem operandText_plain (d : Byte) : (operandText d).all isPlain = true := by
  have hhigh := hexChar_plain (d.toNat / 16) (by omega)
  have hlow := hexChar_plain (d.toNat % 16) (by omega)
  have hlead : isPlain '0' = true ∧ isPlain 'x' = true := by decide
  simp [operandText, hhigh, hlow, hlead]

theorem operandText?_operandText (d : Byte) : operandText? (operandText d) = some d.toNat := by
  simp only [operandText, operandText?, hexDigit?_hexChar (d.toNat / 16) (by omega),
    hexDigit?_hexChar (d.toNat % 16) (by omega), Nat.div_add_mod]

/-- A line whose first word is a mnemonic. -/
theorem assembleText_of_tokens {line : List Char} {m : Mnemonic} {ts : List (List Char)} {ns : List Nat}
    (ht : tokens [] line = mnemonicText m :: ts) (hn : operandList? ts = some ns) :
    assembleText line = assembleLine ⟨.command m, ns⟩ := by
  simp only [assembleText, ht, find_mnemonicText, hn]

theorem assembleLine_B {m : Mnemonic} (h : m.format = .B) (d : Byte) :
    assembleLine ⟨.command m, [d.toNat]⟩ = some [encode (m.instr d)] := by
  have hd : d.toNat ≤ 255 := by omega
  simp [assembleLine, AsmLine.wellFormed, asmExpand, h, hd]

theorem assembleLine_Z {m : Mnemonic} (h : m.format = .Z) :
    assembleLine ⟨.command m, []⟩ = some [encode (m.instr 0)] := by
  simp [assembleLine, AsmLine.wellFormed, asmExpand, h]

theorem format_of_operand (i : Instr) : i.mnemonic.format = if i.operand.isSome then .B else .Z := by
  cases i <;> rfl

/-- Settles O6: the mnemonic is one token and the operand another, the lookup finds the mnemonic and the two hex digits are read
back as the operand. -/
theorem assembledTextIsTheWord : Obligations.AssembledTextIsTheWord := by
  intro i
  have hform := format_of_operand i
  have hself := instr_mnemonic_self i
  have hplain := mnemonicText_plain i.mnemonic
  have hne := mnemonicText_ne_nil i.mnemonic
  cases ho : i.operand with
  | some d =>
    rw [ho] at hform hself
    have htext : instrText i = mnemonicText i.mnemonic ++ ' ' :: operandText d := by
      rw [instrText, ho]
      rfl
    have htok : tokens [] (instrText i) = [mnemonicText i.mnemonic, operandText d] := by
      rw [htext, tokens_word_blank hplain hne, tokens_word (operandText_plain d) (List.cons_ne_nil _ _)]
    have hlist : operandList? [operandText d] = some [d.toNat] := by
      rw [operandList?, operandText?_operandText]
      rfl
    rw [assembleText_of_tokens htok hlist, assembleLine_B hform]
    exact congrArg (fun j => some [encode j]) hself
  | none =>
    rw [ho] at hform hself
    have htext : instrText i = mnemonicText i.mnemonic := by
      rw [instrText, ho, List.append_nil]
    have htok : tokens [] (instrText i) = [mnemonicText i.mnemonic] := by
      rw [htext, tokens_word hplain hne]
    rw [assembleText_of_tokens htok rfl, assembleLine_Z hform]
    exact congrArg (fun j => some [encode j]) hself

/-! ### Responses (R64, R65) -/

/-- Settles O14: the invariants make every word complete, and completing leaves one response, which goes to `k`; a reset leaves
none. -/
theorem everyCommandIsAnsweredOnce : Obligations.EveryCommandIsAnsweredOnce := by
  intro s s' h
  constructor
  · intro k w hn
    obtain ⟨u, hu⟩ := execWord_total (nextElement_inv h hn) w
    obtain ⟨r, hr⟩ := execWord_rsp hu
    have hstep := (step_of_nextElement hn).trans (apply_command.2 ⟨u, r, hu, hr, rfl⟩)
    refine ⟨_, r, hstep, hr, ?_⟩
    change u.responses ++ [(k, r)] = _
    rw [execWord_responses hu, nextElement_shape hn]
  · intro hn
    refine ⟨_, (step_of_nextElement hn).trans (apply_reset s'), ?_⟩
    rw [blockReset_responses, nextElement_shape hn]

/-- `PAR_PUSH` answers `NONE` or `FRAME`, every other command `OK` or an error (R65, R115). -/
theorem exec_status {i : Instr} {s t : State} {r : Response} (h : exec i s = .next t) (hr : t.rsp = some r) :
    ((∃ d, i = .parPush d) ∧ (r.status = .none ∨ r.status = .frame)) ∨
    ((∀ d, i ≠ .parPush d) ∧ (r.status = .ok ∨ r.status.isError = true)) := by
  cases i with
  | parPush d =>
    cases h
    cases hr
    exact .inl ⟨⟨d, rfl⟩, (parseStep_status s d).imp_left And.left⟩
  | encStart | encData d | encEnd =>
    refine .inr ⟨by rintro _ ⟨⟩, ?_⟩
    simp only [exec, execEncStart, execEncData, execEncEnd] at h
    split at h <;> (cases h; cases hr; simp [Error.status, Status.isError])
  | fifoPush d =>
    refine .inr ⟨by rintro _ ⟨⟩, ?_⟩
    rcases execFifoPush_cases h with ⟨-, rfl⟩ | ⟨-, -, rfl⟩
    · cases hr
      exact .inr rfl
    · cases hr
      exact .inl rfl
  | fifoPop =>
    refine .inr ⟨by rintro _ ⟨⟩, ?_⟩
    rcases execFifoPop_cases h with ⟨-, rfl⟩ | ⟨-, -, rfl⟩
    · cases hr
      exact .inr rfl
    · cases hr
      exact .inl rfl
  | crcInit | crcUpdate d | crcRead | parReset | fifoEmpty | fifoFull | fifoSize | fifoCapacity =>
    cases h
    cases hr
    exact .inr ⟨by rintro _ ⟨⟩, .inl rfl⟩

theorem Status.ne_of_isError {st : Status} (h : st.isError = true) : st ≠ .ok ∧ st ≠ .none ∧ st ≠ .frame := by
  refine ⟨?_, ?_, ?_⟩ <;> (rintro rfl; cases h)

/-- Settles O23: `NONE` and `FRAME` are neither `OK` nor an error, so the status tells `PAR_PUSH` from the other commands. -/
theorem statusesByCommand : Obligations.StatusesByCommand := by
  refine ⟨⟨rfl, rfl, rfl, rfl, rfl, rfl, rfl⟩, fun i s t r h hr => ?_⟩
  rcases exec_status h hr with ⟨⟨d, rfl⟩, hs⟩ | ⟨hi, hs⟩
  · rcases hs with hs | hs <;> simp [hs, Status.isError]
  · rcases hs with hs | hs
    · simp [hs, hi, Status.isError]
    · simp [hs, hi, Status.ne_of_isError hs]

/-! ### `CRC_BLOCK` (R70, R83) -/

/-- A command issued as its word is executed, and its response delivered. -/
theorem apply_ofInstr {s t : State} {k : Requester} {i : Instr} (h : s.apply (Element.ofInstr k i) = .next t) :
    ∃ u, exec i s = .next u ∧ t = u.deliver k := by
  rw [Element.ofInstr, State.apply, execWord_command (decode_encode i)] at h
  exact Result.deliver_eq_next.1 h

/-- One `CRC_UPDATE` a byte folds the byte step over the register. -/
theorem runOrder_crcUpdate {bs : List Byte} {k : Requester} {s t : State}
    (h : runOrder (bs.map fun d => Element.ofInstr k (.crcUpdate d)) s = .next t) :
    t.crcReg = bs.foldl crcStep s.crcReg := by
  induction bs generalizing s with
  | nil =>
    cases h
    rfl
  | cons d bs ih =>
    obtain ⟨v, hv, ht⟩ := (runOrder_cons ..).1 h
    obtain ⟨u, hu, rfl⟩ := apply_ofInstr hv
    cases hu
    rw [ih ht, deliver_crcReg]
    rfl

theorem asmExpand_crcBlock (bs : List Byte) :
    asmExpand ⟨.crcBlock, bs.map BitVec.toNat⟩ = .crcInit :: (bs.map Instr.crcUpdate ++ [.crcRead]) := by
  simp [asmExpand, Function.comp_def]

/-- Settles O34: `CRC_INIT` sets the initial value, the updates fold the step over the operands, and `CRC_READ` returns the
register. -/
theorem crcBlockReturnsTheCrc : Obligations.CrcBlockReturnsTheCrc := by
  intro bs k s t h
  rw [asmExpand_crcBlock, List.map_cons, List.map_append, List.map_map, runOrder_cons] at h
  obtain ⟨s₁, hinit, h⟩ := h
  obtain ⟨s₂, hupdates, h⟩ := (runOrder_append ..).1 h
  obtain ⟨s₃, hread, h⟩ := (runOrder_cons ..).1 h
  obtain ⟨u, hu, rfl⟩ := apply_ofInstr hinit
  obtain ⟨v, hv, rfl⟩ := apply_ofInstr hread
  cases hu
  cases hv
  cases h
  have hreg := runOrder_crcUpdate hupdates
  rw [deliver_crcReg] at hreg
  rw [deliver_rsp]
  change some (Response.mk .ok s₂.crcReg []) = _
  rw [hreg]
  rfl

end Sys2Proof.Machine
end

section
/-! Proofs of the family 40_crc: the byte step as arithmetic and as a linear map, the CRC over a sequence, and the commands of the
CRC unit (spec/40_crc.md). -/

namespace Sys2Proof.Machine

/-! ### The byte step on numbers (R75) -/

theorem getLsbD_15_eq_decide (r : Word) : r.getLsbD 15 = decide (0x8000 ≤ r.toNat) := BitVec.msb_eq_decide r

theorem shiftLeft_one_toNat (r : Word) : (r <<< 1).toNat = 2 * r.toNat % 0x10000 := by
  rw [BitVec.toNat_shiftLeft, Nat.shiftLeft_eq, Nat.mul_comm]

/-- A bit whose top bit is 0 doubles the register. -/
theorem crcBit_toNat_of_lt {r : Word} (h : r.toNat < 0x8000) : (crcBit r).toNat = 2 * r.toNat := by
  have htop : r.getLsbD 15 = false := by rw [getLsbD_15_eq_decide, decide_eq_false_iff_not]; omega
  rw [crcBit, htop, if_neg Bool.false_ne_true, shiftLeft_one_toNat]
  omega

/-- A bit whose top bit is 1 shifts it out and XORs the polynomial in. -/
theorem crcBit_toNat_of_ge {r : Word} (h : 0x8000 ≤ r.toNat) :
    (crcBit r).toNat = (2 * r.toNat - 0x10000) ^^^ 0x1021 := by
  have htop : r.getLsbD 15 = true := by rw [getLsbD_15_eq_decide, decide_eq_true h]
  have hshift : 2 * r.toNat % 0x10000 = 2 * r.toNat - 0x10000 := by omega
  rw [crcBit, htop, if_pos rfl, BitVec.toNat_xor, shiftLeft_one_toNat, hshift]
  rfl

theorem zext16_shiftLeft_toNat (b : Byte) : (zext16 b <<< 8).toNat = b.toNat * 256 := by
  rw [zext16, BitVec.toNat_shiftLeft, BitVec.toNat_setWidth, Nat.shiftLeft_eq]
  omega

/-- Settles O28: the function is `crcBit`, and the number `x` is the register that the eight bits start from. -/
theorem crcStepIsEightShifts : Obligations.CrcStepIsEightShifts := by
  refine ⟨crcBit, fun _ => crcBit_toNat_of_lt, fun _ => crcBit_toNat_of_ge, fun r b x hx => ?_⟩
  obtain rfl : x = r ^^^ (zext16 b <<< 8) := by
    apply BitVec.eq_of_toNat_eq
    rw [hx, BitVec.toNat_xor, zext16_shiftLeft_toNat]
  rfl

/-! ### The byte step is linear (R79), and its table (R78) -/

theorem zext16_xor (a b : Byte) : zext16 (a ^^^ b) = zext16 a ^^^ zext16 b := BitVec.setWidth_xor

theorem crcStep_xor (r₁ r₂ : Word) (b₁ b₂ : Byte) :
    crcStep (r₁ ^^^ r₂) (b₁ ^^^ b₂) = crcStep r₁ b₁ ^^^ crcStep r₂ b₂ := by
  rw [crcStep, crcStep, crcStep, ← crcBits_xor, zext16_xor, BitVec.shiftLeft_xor_distrib]
  congr 1
  ac_rfl

theorem crcStep_zero_zero : crcStep 0 0 = 0 := by decide

/-- Settles O30: each of the eight bits is linear, and so is the byte's entry. -/
theorem crcStepIsLinear : Obligations.CrcStepIsLinear := ⟨crcStep_xor, crcStep_zero_zero, shiftLeft_one_toNat⟩

theorem msbOf_eq_ofNat (w : Word) : msbOf w = BitVec.ofNat 8 (w.toNat / 256) := by
  rw [msbOf, BitVec.extractLsb', Nat.shiftRight_eq_div_pow]

theorem msbOf_toNat (w : Word) : (msbOf w).toNat = w.toNat / 256 := by
  rw [msbOf_eq_ofNat, BitVec.toNat_ofNat]
  omega

theorem lsbOf_toNat (w : Word) : (lsbOf w).toNat = w.toNat % 256 := by
  simp [lsbOf]

/-- A word is its low byte XOR its high byte in place. -/
theorem eq_zext16_xor_shiftLeft (r : Word) : r = zext16 (lsbOf r) ^^^ (zext16 (msbOf r) <<< 8) := by
  ext i hi
  by_cases h : i < 8
  · simp [zext16, lsbOf, msbOf, h, hi]
  · have hsub : i - 8 < 8 := by omega
    have hadd : 8 + (i - 8) = i := by omega
    simp [zext16, lsbOf, msbOf, h, hi, hsub, hadd]

theorem shiftLeft_eight_toNat (r : Word) : (r <<< 8).toNat = r.toNat % 256 * 256 := by
  rw [BitVec.toNat_shiftLeft, Nat.shiftLeft_eq]
  omega

theorem zext16_lsbOf_shiftLeft (r : Word) : zext16 (lsbOf r) <<< 8 = r <<< 8 := by
  apply BitVec.eq_of_toNat_eq
  rw [zext16_shiftLeft_toNat, shiftLeft_eight_toNat, lsbOf_toNat]

theorem msbOf_shiftLeft (r : Word) : msbOf (r <<< 8) = lsbOf r := by
  apply BitVec.eq_of_toNat_eq
  rw [msbOf_toNat, shiftLeft_eight_toNat, lsbOf_toNat]
  omega

/-- The low byte of the register meets no top bit in eight bits, so it moves up unchanged. -/
theorem crcStep_low_byte (a : Byte) : crcStep (zext16 a) 0 = zext16 a <<< 8 := by
  have hentry : zext16 a ^^^ (zext16 0 <<< 8) = zext16 a := by simp [zext16]
  rw [crcStep, hentry]
  refine crcBits_eq_shiftLeft 8 _ (fun i hi => ?_) (by decide)
  rw [zext16, BitVec.getLsbD_setWidth, BitVec.getLsbD_of_ge a (15 - i) (by omega), Bool.and_false]

/-- The high byte of the register acts as the byte that enters does. -/
theorem crcStep_high_byte (a b : Byte) : crcStep (zext16 a <<< 8) b = crcStep 0 (a ^^^ b) := by
  rw [crcStep, crcStep, zext16_xor, BitVec.shiftLeft_xor_distrib]
  exact congrArg (crcBits 8) BitVec.zero_xor.symm

/-- The byte step by its table of 256 entries `crcStep 0 x`. -/
theorem crcStep_eq_table (r : Word) (b : Byte) : crcStep r b = (r <<< 8) ^^^ crcStep 0 (msbOf r ^^^ b) :=
  calc crcStep r b
      = crcStep (zext16 (lsbOf r) ^^^ (zext16 (msbOf r) <<< 8)) (0 ^^^ b) := by
        rw [← eq_zext16_xor_shiftLeft, show (0 : Byte) ^^^ b = b from BitVec.zero_xor]
    _ = (r <<< 8) ^^^ crcStep 0 (msbOf r ^^^ b) := by
        rw [crcStep_xor, crcStep_low_byte, crcStep_high_byte, zext16_lsbOf_shiftLeft]

/-- Settles O31: the register's high byte and the new byte go through the table, and its low byte moves up. -/
theorem crcTableStepIsEqual : Obligations.CrcTableStepIsEqual := by
  intro r b
  rw [← msbOf_eq_ofNat]
  exact crcStep_eq_table r b

/-! ### The CRC of a sequence (R76, R77, R84) -/

theorem computeCRC16_append_singleton (p : List Byte) (b : Byte) :
    computeCRC16 (p ++ [b]) = crcStep (computeCRC16 p) b :=
  computeCRC16_append p [b]

/-- Settles O29: by the definition of the fold, and the check string by computation. -/
theorem crcIsTheFoldOfTheStep : Obligations.CrcIsTheFoldOfTheStep :=
  ⟨computeCRC16_nil, computeCRC16_append_singleton, by decide +kernel⟩

/-- A step of the register's own high byte only moves its low byte up. -/
theorem crcStep_msbOf (r : Word) : crcStep r (msbOf r) = r <<< 8 := by
  calc crcStep r (msbOf r)
      = (r <<< 8) ^^^ crcStep 0 0 := by rw [crcStep_eq_table, BitVec.xor_self]; rfl
    _ = r <<< 8 := by rw [crcStep_zero_zero]; exact BitVec.xor_zero

/-- Settles O32: the two bytes of the register, MSB first, shift all its bits out. -/
theorem payloadWithItsCrcGivesZero : Obligations.PayloadWithItsCrcGivesZero := by
  intro p
  rw [computeCRC16_append, List.foldl_cons, List.foldl_cons, List.foldl_nil, crcStep_msbOf, ← msbOf_shiftLeft, crcStep_msbOf,
    ← BitVec.shiftLeft_add]
  exact BitVec.shiftLeft_eq_zero (Nat.le_refl 16)

/-! ### The commands of the CRC unit (R80 to R82) -/

theorem exec_crcInit (s : State) :
    exec .crcInit s = .next { s with crcReg := 0xFFFF, rsp := some ⟨.ok, 0, []⟩ } := rfl

theorem exec_crcUpdate (d : Byte) (s : State) : exec (.crcUpdate d) s =
    .next { s with crcReg := crcStep s.crcReg d, rsp := some ⟨.ok, crcStep s.crcReg d, []⟩ } := rfl

theorem exec_crcRead (s : State) : exec .crcRead s = .next { s with rsp := some ⟨.ok, s.crcReg, []⟩ } := rfl

/-- The opcode of `CRC_INIT` over a low byte that is not zero is illegal (R62). -/
theorem decode_crcInit_nonzero {d : Byte} (hd : d ≠ 0) : ∃ why, decode (0x1000 ||| d.setWidth 16) = .illegal why := by
  have hword : ((0x1000 : Word) ||| d.setWidth 16).toNat = 0x10 * 256 + d.toNat := or_operand_toNat rfl d
  have hhigh : ((0x1000 : Word) ||| d.setWidth 16).toNat / 256 = 0x10 := by omega
  have hlow : ((0x1000 : Word) ||| d.setWidth 16).toNat % 256 ≠ 0 := by
    have hpos : d.toNat ≠ 0 := fun h => hd (BitVec.eq_of_toNat_eq h)
    omega
  refine decode_illegal_iff_opcodes.2 ⟨?_, fun _ => hlow⟩
  rw [hhigh]
  decide

/-- Settles O25: the word is the encoder's, and a nonzero low byte below a format-Z opcode is illegal. -/
theorem crcInitSetsTheRegister : Obligations.CrcInitSetsTheRegister :=
  ⟨decode_encode .crcInit, fun _ => decode_crcInit_nonzero, exec_crcInit⟩

/-- Settles O26: the word is the encoder's, and the four values are computed. -/
theorem crcUpdateStepsTheRegister : Obligations.CrcUpdateStepsTheRegister :=
  ⟨fun d => decode_encode (.crcUpdate d), exec_crcUpdate, by decide, by decide, crcStep_zero_zero, by decide⟩

/-- Settles O27: the word is the encoder's, and the command only answers. -/
theorem crcReadReturnsTheRegister : Obligations.CrcReadReturnsTheRegister := ⟨decode_encode .crcRead, exec_crcRead⟩

/-! ### The streaming law (R83) -/

theorem crcBytes_cons_update {e : Element} {d : Byte} (h : e.instr? = some (.crcUpdate d)) (es : List Element) :
    crcBytes (e :: es) = d :: crcBytes es := by
  simp [crcBytes, h]

theorem crcBytes_cons_other {e : Element} (h : ∀ d, e.instr? ≠ some (.crcUpdate d)) (es : List Element) :
    crcBytes (e :: es) = crcBytes es := by
  unfold crcBytes
  rw [List.filterMap_cons_none]
  split
  · next d hd => exact absurd hd (h d)
  · rfl

/-- Only `CRC_INIT` and `CRC_UPDATE` write the register. -/
theorem exec_crcReg_of_other {i : Instr} {s t : State} (h : exec i s = .next t) (hinit : i ≠ .crcInit)
    (hupdate : ∀ d, i ≠ .crcUpdate d) : t.crcReg = s.crcReg := by
  cases i with
  | crcInit => exact absurd rfl hinit
  | crcUpdate d => exact absurd rfl (hupdate d)
  | crcRead =>
    cases h
    rfl
  | _ => exact (commandWritesOnlyItsUnit _ s t h).2 .crc nofun

/-- Over a run of commands with no `CRC_INIT` in it, the register folds the byte step over the operands of `CRC_UPDATE`. -/
theorem CommandRun.crcReg_eq {s t : State} {es : List Element} {rs : List (Requester × Response)}
    (h : CommandRun s es rs t) (hinit : ∀ e ∈ es, e.instr? ≠ some .crcInit) :
    t.crcReg = (crcBytes es).foldl crcStep s.crcReg := by
  induction h with
  | nil s => rfl
  | @cons s u t k w r es rs hexec _ _ ih =>
    obtain ⟨hhead, htail⟩ := List.forall_mem_cons.1 hinit
    have hrest : t.crcReg = (crcBytes es).foldl crcStep u.crcReg := ih htail
    rcases execWord_instr? (k := k) hexec with ⟨i, hi, hu⟩ | ⟨hnone, rfl⟩
    · by_cases hupdate : ∃ d, i = .crcUpdate d
      · obtain ⟨d, rfl⟩ := hupdate
        cases (exec_crcUpdate d s).symm.trans hu
        rw [crcBytes_cons_update hi, hrest, List.foldl_cons]
      · rw [not_exists] at hupdate
        rw [crcBytes_cons_other (by simpa [hi] using hupdate), hrest,
          exec_crcReg_of_other hu (by simpa [hi] using hhead) hupdate]
    · rw [crcBytes_cons_other (by simp [hnone])]
      exact hrest

/-- From a register that holds the initial value, the run leaves the CRC of its bytes. -/
theorem crcReg_of_runOrder {es : List Element} {s t : State} (hn : NoReset es)
    (hinit : ∀ e ∈ es, e.instr? ≠ some .crcInit) (hs : s.crcReg = crcInitValue) (h : runOrder es s = .next t) :
    t.crcReg = computeCRC16 (crcBytes es) := by
  rw [(commandRun_of_runOrder hn h).crcReg_eq hinit, hs]
  rfl

/-- Settles O33: `CRC_INIT` and a reset both leave the initial value, and the run folds the step over its bytes from there. -/
theorem crcStreamsOverInterleaving : Obligations.CrcStreamsOverInterleaving := by
  intro es s t hn hinit
  refine ⟨fun k h => ?_, fun h => ?_⟩
  · obtain ⟨v, hv, hrun⟩ := (runOrder_cons ..).1 h
    obtain ⟨u, hu, rfl⟩ := apply_ofInstr hv
    cases (exec_crcInit s).symm.trans hu
    exact crcReg_of_runOrder hn hinit (deliver_crcReg ..) hrun
  · obtain ⟨v, hv, hrun⟩ := (runOrder_cons ..).1 h
    cases (apply_reset s).symm.trans hv
    exact crcReg_of_runOrder hn hinit (blockReset_crcReg s) hrun

end Sys2Proof.Machine
end

section
/-! Proofs of the family 41_encoder: the commands of the encoder unit, the bytes of a frame, and the streaming law
(spec/41_encoder.md). -/

namespace Sys2Proof.Machine

/-! ### The escaping rule (R90) -/

/-- Settles O35: the three pairs are computed, and every other byte is not reserved. -/
theorem escapeReplacesTheReservedBytes : Obligations.EscapeReplacesTheReservedBytes := by
  refine ⟨rfl, rfl, rfl, fun b hstx hetx hesc => escape_plain ?_⟩
  rw [← Bool.not_eq_true, isReserved_iff]
  rintro (h | h | h)
  · exact hstx h
  · exact hetx h
  · exact hesc h

/-! ### The commands of the encoder unit (R96 to R98) -/

theorem lsbOf_eq_ofNat (w : Word) : lsbOf w = BitVec.ofNat 8 (w.toNat % 256) := operandD_eq w

/-- A command of another unit leaves the encoder as it is (R36). -/
theorem exec_sameEncoder {i : Instr} {s t : State} (h : exec i s = .next t) (hi : i.unit ≠ .encoder) :
    SameEncoder s t :=
  (commandWritesOnlyItsUnit i s t h).2 .encoder hi.symm

/-- Of the commands, only `ENC_END` closes an open frame. -/
theorem exec_keeps_open {i : Instr} {s t : State} (h : exec i s = .next t) (hs : s.encActive = true)
    (hi : i ≠ .encEnd) : t.encActive = true := by
  cases i with
  | encStart =>
    cases (execEncStart_open hs).symm.trans h
    exact hs
  | encData d =>
    cases (execEncData_open hs d).symm.trans h
    exact hs
  | encEnd => exact absurd rfl hi
  | _ => exact (exec_sameEncoder h nofun).1.trans hs

/-- An element that closes an open frame is a reset or an `ENC_END`. -/
theorem apply_closes {s t : State} {e : Element} (h : s.apply e = .next t) (hs : s.encActive = true)
    (ht : t.encActive = false) : e = .reset ∨ e.instr? = some .encEnd := by
  cases e with
  | reset => exact .inl rfl
  | command k w =>
    right
    obtain ⟨u, r, hu, -, rfl⟩ := apply_command.1 h
    have hclosed : u.encActive = false := ht
    rcases execWord_instr? (k := k) hu with ⟨i, hi, hexec⟩ | ⟨-, rfl⟩
    · by_contra hne
      have hopen := exec_keeps_open hexec hs fun h => hne (h ▸ hi)
      simp [hclosed] at hopen
    · simp [hs] at hclosed

/-- Settles O36: the word is the encoder's, the command has its two cases, and only `ENC_END` and a reset close the frame. -/
theorem encStartOpensAFrame : Obligations.EncStartOpensAFrame :=
  ⟨decode_encode .encStart, fun _ => execEncStart_idle, fun _ => execEncStart_open, fun _ _ _ => apply_closes⟩

/-- Settles O37: the word is the encoder's, and the command has its two cases. -/
theorem encDataEmitsTheEscapedByte : Obligations.EncDataEmitsTheEscapedByte :=
  ⟨fun d => decode_encode (.encData d), fun d _ h => execEncData_open h d, fun d _ h => execEncData_idle h d⟩

/-- Settles O38: the word is the encoder's, and the two bytes of the CRC are its quotient and its remainder by 256. -/
theorem encEndEmitsTheCrc : Obligations.EncEndEmitsTheCrc := by
  refine ⟨decode_encode .encEnd, fun s hs => ?_, fun _ => execEncEnd_idle⟩
  rw [← msbOf_eq_ofNat, ← lsbOf_eq_ofNat]
  exact execEncEnd_open hs

/-! ### The length of a frame (R92) -/

theorem isReserved_eq_decide_mem (b : Byte) : isReserved b = decide (b ∈ ([0x02, 0x03, 0x1B] : List Byte)) := by
  rw [Bool.eq_iff_iff, isReserved_iff]
  simp [stx, etx, esc]

theorem length_escape (b : Byte) : (escape b).length = 1 + if isReserved b then 1 else 0 := by
  cases hb : isReserved b with
  | true => simp [escape_reserved hb]
  | false => simp [escape_plain hb]

/-- Escaping makes a sequence longer by the number of its reserved bytes. -/
theorem length_flatMap_escape (q : List Byte) : (q.flatMap escape).length = q.length + q.countP isReserved := by
  induction q with
  | nil => rfl
  | cons b q ih =>
    rw [List.flatMap_cons, List.length_append, length_escape, ih, List.countP_cons, List.length_cons]
    omega

/-- The bytes of a frame that are escaped: the payload, and its CRC with the MSB first (R91). -/
def frameBody (p : List Byte) : List Byte := p ++ [msbOf (computeCRC16 p), lsbOf (computeCRC16 p)]

theorem encodeFrame_eq_frameBody (p : List Byte) :
    encodeFrame p = stx :: ((frameBody p).flatMap escape ++ [etx]) := encodeFrame_eq p

theorem length_frameBody (p : List Byte) : (frameBody p).length = p.length + 2 := by
  simp [frameBody]

theorem length_encodeFrame (p : List Byte) :
    (encodeFrame p).length = 4 + p.length + (frameBody p).countP isReserved := by
  rw [encodeFrame_eq_frameBody, List.length_cons, List.length_append, length_flatMap_escape, length_frameBody,
    List.length_singleton]
  omega

/-- Settles O39: each reserved byte adds one, and there are at most as many as bytes. In the spec's vector V-ENC-9 all bytes are
reserved. -/
theorem frameLengthCountsTheEscapes : Obligations.FrameLengthCountsTheEscapes := by
  refine ⟨fun p => ?_, [0x03, 0x02, 0x03, 0x03, 0x03, 0x1B, 0x1B, 0x03, 0x1B], by decide, by decide +kernel⟩
  have hlen := length_encodeFrame p
  have hle : (frameBody p).countP isReserved ≤ (frameBody p).length := List.countP_le_length
  rw [length_frameBody] at hle
  refine ⟨?_, by omega, by omega⟩
  rw [hlen, funext isReserved_eq_decide_mem, frameBody]

/-! ### The delimiters of a frame (R93) -/

theorem not_delimiter_of_mem_flatMap_escape {q : List Byte} {x : Byte} (h : x ∈ q.flatMap escape) :
    x ≠ stx ∧ x ≠ etx := by
  obtain ⟨b, -, hb⟩ := List.mem_flatMap.1 h
  exact not_delimiter_of_mem_escape hb

/-- A value that ends a list and is not in it before stands at the last index only. -/
theorem getElem?_concat_eq_some_iff {l : List Byte} {x : Byte} (h : x ∉ l) (i : Nat) :
    (l ++ [x])[i]? = some x ↔ i = l.length := by
  constructor
  · intro hi
    rcases Nat.lt_trichotomy i l.length with hlt | heq | hgt
    · rw [List.getElem?_append_left hlt] at hi
      exact absurd (List.mem_of_getElem? hi) h
    · exact heq
    · rw [List.getElem?_eq_none (by simpa using hgt)] at hi
      cases hi
  · rintro rfl
    exact List.getElem?_concat_length

/-- The second byte of an escape pair. -/
theorem escaped_of_isReserved {b : Byte} (h : isReserved b = true) :
    some (b ^^^ escXor) ∈ [some (0x22 : Byte), some 0x23, some 0x3B] := by
  rcases (isReserved_iff b).1 h with rfl | rfl | rfl <;> decide

/-- In escaped bytes that ETX ends, an ESC is the first byte of an escape pair. -/
theorem escaped_after_esc (q : List Byte) (i : Nat) (h : (q.flatMap escape ++ [etx])[i]? = some esc) :
    (q.flatMap escape ++ [etx])[i + 1]? ∈ [some (0x22 : Byte), some 0x23, some 0x3B] := by
  induction q generalizing i with
  | nil =>
    cases i with
    | zero => exact absurd h (by decide)
    | succ i => simp at h
  | cons b q ih =>
    rw [List.flatMap_cons] at h ⊢
    cases hb : isReserved b with
    | true =>
      have hpair := escaped_of_isReserved hb
      rw [escape_reserved hb] at h ⊢
      match i with
      | 0 => exact hpair
      | 1 =>
        have hesc : b ^^^ escXor = esc := Option.some.inj h
        rw [hesc] at hpair
        exact absurd hpair (by decide)
      | i + 2 => exact ih i h
    | false =>
      rw [escape_plain hb] at h ⊢
      cases i with
      | zero =>
        have hesc : b = esc := Option.some.inj h
        rw [hesc] at hb
        exact absurd hb (by decide)
      | succ i => exact ih i h

/-- Settles O40: escaped bytes are no delimiters, and an ESC among them is followed by an escaped byte. -/
theorem delimitersOnlyDelimit : Obligations.DelimitersOnlyDelimit := by
  intro p i
  have hstx : stx ∉ (frameBody p).flatMap escape ++ [etx] := by
    rw [List.mem_append, List.mem_singleton]
    rintro (h | h)
    · exact (not_delimiter_of_mem_flatMap_escape h).1 rfl
    · exact absurd h (by decide)
  have hetx : etx ∉ (frameBody p).flatMap escape := fun h => (not_delimiter_of_mem_flatMap_escape h).2 rfl
  rw [encodeFrame_eq_frameBody]
  cases i with
  | zero =>
    rw [List.getElem?_cons_zero]
    exact ⟨iff_of_true rfl rfl, iff_of_false (by decide) (by simp), fun h => absurd h (by decide)⟩
  | succ i =>
    rw [List.getElem?_cons_succ, List.getElem?_cons_succ, List.length_cons, List.length_append, List.length_singleton,
      Nat.add_right_cancel_iff, Nat.add_right_cancel_iff]
    exact ⟨iff_of_false (fun h => hstx (List.mem_of_getElem? h)) (Nat.succ_ne_zero i),
      getElem?_concat_eq_some_iff hetx i, escaped_after_esc _ i⟩

/-! ### The streaming law (R99) -/

theorem instr?_ofInstr (k : Requester) (i : Instr) : (Element.ofInstr k i).instr? = some i :=
  legalInstr_eq_some.2 (decode_encode i)

/-- The first command of a run, and the run of the rest. -/
theorem CommandRun.cons_ofInstr {s t : State} {k : Requester} {i : Instr} {es : List Element}
    {rs : List (Requester × Response)} (h : CommandRun s (Element.ofInstr k i :: es) rs t) :
    ∃ u r rs', exec i s = .next u ∧ u.rsp = some r ∧ rs = (k, r) :: rs' ∧ CommandRun (u.answered k r) es rs' t := by
  cases h with
  | cons hexec hrsp hrest =>
    rw [execWord_command (decode_encode i)] at hexec
    exact ⟨_, _, _, hexec, hrsp, rfl, hrest⟩

/-- A run of two sequences is a run of the first and then of the second, and so are its responses. -/
theorem CommandRun.append {es es' : List Element} {s t : State} {rs : List (Requester × Response)}
    (h : CommandRun s (es ++ es') rs t) :
    ∃ rs₁ rs₂ u, rs = rs₁ ++ rs₂ ∧ CommandRun s es rs₁ u ∧ CommandRun u es' rs₂ t := by
  induction es generalizing s rs with
  | nil => exact ⟨[], rs, s, rfl, .nil s, h⟩
  | cons e es ih =>
    cases h with
    | cons hexec hrsp hrest =>
      obtain ⟨rs₁, rs₂, u, rfl, hfirst, hsecond⟩ := ih hrest
      exact ⟨_ :: rs₁, rs₂, u, rfl, .cons hexec hrsp hfirst, hsecond⟩

theorem unitResponses_append (u : BlockUnit) {es : List Element} {rs : List (Requester × Response)}
    (h : rs.length = es.length) (es' : List Element) (rs' : List (Requester × Response)) :
    unitResponses u (es ++ es') (rs ++ rs') = unitResponses u es rs ++ unitResponses u es' rs' := by
  rw [unitResponses, commandsWith, List.zipWith_append h.symm, List.filterMap_append]
  rfl

/-- Over a run whose encoder commands are `ENC_DATA` of the bytes of `p`, an open frame stays open, its CRC folds the byte step
over `p`, and each byte is answered with its escaped form. -/
theorem CommandRun.encoder_data {s t : State} {es : List Element} {rs : List (Requester × Response)}
    (h : CommandRun s es rs t) {p : List Byte} (hp : unitInstrs .encoder es = p.map Instr.encData)
    (hs : s.encActive = true) :
    t.encActive = true ∧ t.encCrc = p.foldl crcStep s.encCrc ∧
      unitResponses .encoder es rs = p.map fun d => ⟨.ok, 0, escape d⟩ := by
  induction h generalizing p with
  | nil s =>
    obtain rfl : p = [] := List.map_eq_nil_iff.1 hp.symm
    exact ⟨hs, rfl, rfl⟩
  | @cons s u t k w r es rs hexec hrsp _ ih =>
    by_cases hown : ∃ i, (Element.command k w).instr? = some i ∧ i.unit = .encoder
    · obtain ⟨i, hi, hunit⟩ := hown
      rw [unitInstrs_cons_own hi hunit] at hp
      obtain ⟨d, q, rfl, rfl, hq⟩ := List.map_eq_cons_iff.1 hp.symm
      rw [execWord_command (legalInstr_eq_some.1 hi)] at hexec
      cases (execEncData_open hs d).symm.trans hexec
      cases hrsp
      obtain ⟨hopen, hcrc, hresp⟩ := ih hq.symm hs
      exact ⟨hopen, hcrc, by rw [unitResponses_cons_own hi hunit, hresp, List.map_cons]⟩
    · have hother : ∀ i, (Element.command k w).instr? = some i → i.unit ≠ .encoder :=
        fun i hi hunit => hown ⟨i, hi, hunit⟩
      have hsame : SameEncoder s u := by
        rcases execWord_instr? (k := k) hexec with ⟨i, hi, hu⟩ | ⟨-, rfl⟩
        · exact exec_sameEncoder hu (hother i hi)
        · exact ⟨rfl, rfl⟩
      obtain ⟨hactive, hcrc⟩ := hsame
      rw [unitInstrs_cons_other hother] at hp
      rw [unitResponses_cons_other hother, ← hcrc]
      exact ih hp (hactive.trans hs)

/-- Between an `ENC_START` and an `ENC_END` that are answered `OK`, a run whose encoder commands are `ENC_DATA` of the bytes of
`p` is answered with the frame of `p`, and `ENC_END` with its CRC. -/
theorem CommandRun.encoder_frame {s t : State} {k k' : Requester} {mid : List Element} {rs : List (Requester × Response)}
    (h : CommandRun s (Element.ofInstr k .encStart :: (mid ++ [Element.ofInstr k' .encEnd])) rs t) {p : List Byte}
    (hp : unitInstrs .encoder mid = p.map Instr.encData)
    (hok : ∀ r ∈ unitResponses .encoder (Element.ofInstr k .encStart :: (mid ++ [Element.ofInstr k' .encEnd])) rs,
      r.status = .ok) :
    (unitResponses .encoder (Element.ofInstr k .encStart :: (mid ++ [Element.ofInstr k' .encEnd])) rs).flatMap
      Response.bytes = encodeFrame p ∧
    ∃ r, t.rsp = some r ∧ r.value = computeCRC16 p := by
  obtain ⟨s₁, r₁, rs', hstart, hr₁, rfl, hrest⟩ := h.cons_ofInstr
  obtain ⟨rs₂, rs₃, s₂, rfl, hdata, hlast⟩ := hrest.append
  obtain ⟨s₃, r₃, rs₄, hend, hr₃, rfl, hnil⟩ := hlast.cons_ofInstr
  cases hnil
  rw [unitResponses_cons_own (u := .encoder) (instr?_ofInstr k .encStart) rfl,
    unitResponses_append _ hdata.length_eq,
    unitResponses_cons_own (u := .encoder) (instr?_ofInstr k' .encEnd) rfl] at hok ⊢
  have hidle : s.encActive = false := by
    by_contra hs
    cases (execEncStart_open (Bool.eq_true_of_not_eq_false hs)).symm.trans hstart
    cases hr₁
    exact absurd (hok _ List.mem_cons_self) nofun
  cases (execEncStart_idle hidle).symm.trans hstart
  cases hr₁
  obtain ⟨hopen, hcrc, hresp⟩ := hdata.encoder_data hp rfl
  cases (execEncEnd_open hopen).symm.trans hend
  cases hr₃
  have hcrcp : s₂.encCrc = computeCRC16 p := hcrc
  refine ⟨?_, _, rfl, hcrcp⟩
  rw [hresp, hcrcp]
  simp [encodeFrame, unitResponses, commandsWith, List.flatMap_map]

/-- Settles O41: the reset-free order runs as commands, and `CommandRun.encoder_frame` says what they are answered. -/
theorem encoderStreamsTheFrame : Obligations.EncoderStreamsTheFrame := by
  intro p k k' mid s t hn hp hrun hok
  have hnall : NoReset (Element.ofInstr k .encStart :: mid ++ [Element.ofInstr k' .encEnd]) := by
    simpa [NoReset, Element.ofInstr] using hn
  exact (commandRun_of_runOrder hnall hrun).encoder_frame hp hok

end Sys2Proof.Machine
end

section
/-! Proofs of the family 42_parser: the rows of the transition table as commands, what takes the parser out of a frame, and what
it does with a frame and with a corrupted one (spec/42_parser.md). -/

namespace Sys2Proof.Machine

/-! ### The rows of the transition table as commands (R106 to R116) -/

/-- `PAR_PUSH` answers with what the byte step returns (R115). -/
theorem exec_parPush_of_parseStep {d : Byte} {s t : State} {st : Status} {bs : List Byte} (h : parseStep s d = (t, st, bs)) :
    exec (.parPush d) s = .next { t with rsp := some ⟨st, 0, bs⟩ } := by
  rw [exec, execParPush, h, respond_eq]

theorem exec_parReset (s : State) :
    exec .parReset s = .next { s with parBuf := [], parState := .waitStart, rsp := some ⟨.ok, 0, []⟩ } := rfl

/-- Settles O42: the word is the encoder's, and `WaitStart` has the two rows of an STX and of any other byte. -/
theorem parserWaitsForStx : Obligations.ParserWaitsForStx :=
  ⟨fun d => decode_encode (.parPush d), fun _ hs => exec_parPush_of_parseStep (parseStep_waitStart_stx hs),
    fun _ _ hs hd => exec_parPush_of_parseStep (parseStep_waitStart_other hs hd)⟩

/-- Settles O43: the row of an ESC in `InFrame`. -/
theorem parserEscapes : Obligations.ParserEscapes :=
  fun _ hs => exec_parPush_of_parseStep (parseStep_inFrame_esc hs)

/-- Settles O44: both kinds of data byte go through the one append, which has its two cases. -/
theorem parserAppendsData : Obligations.ParserAppendsData := by
  intro d v s hdata
  have happend : parseStep s d = parAppend s v := by
    rcases hdata with ⟨hs, hesc, hetx, rfl⟩ | ⟨hs, rfl⟩
    · exact parseStep_inFrame_data hs hesc hetx
    · exact parseStep_inEscape hs d
  exact ⟨fun hroom => exec_parPush_of_parseStep (happend.trans (parAppend_room hroom v)),
    fun hfull => exec_parPush_of_parseStep (happend.trans (parAppend_full hfull v))⟩

theorem parFinalize_valid {s : State} {p : List Byte} (h : validPayload s.parBuf = some p) :
    parFinalize s = ({ s with parBuf := [], parState := .waitStart }, .frame, p) := by
  simp [parFinalize, h]

theorem parFinalize_invalid {s : State} (h : validPayload s.parBuf = none) :
    parFinalize s = ({ s with parBuf := [], parState := .waitStart }, .none, []) := by
  simp [parFinalize, h]

theorem parFinalize_parState (s : State) : (parFinalize s).1.parState = .waitStart := by
  cases h : validPayload s.parBuf with
  | some p => rw [parFinalize_valid h]
  | none => rw [parFinalize_invalid h]

theorem wordOfBytes_toNat (a b : Byte) : (wordOfBytes a b).toNat = a.toNat * 256 + b.toNat := by
  have h256 : (256 : Word).toNat = 256 := rfl
  rw [wordOfBytes, zext16, zext16, BitVec.toNat_add, BitVec.toNat_mul, BitVec.toNat_setWidth, BitVec.toNat_setWidth, h256]
  omega

/-- Settles O45: an ETX in `InFrame` finalizes, and the buffer holds a valid payload exactly if its last pair is the CRC. -/
theorem parserFinalizesOnEtx : Obligations.ParserFinalizesOnEtx := by
  refine ⟨fun s hs hshort => ?_, fun s p msb lsb hs hbuf => ?_⟩
  · exact exec_parPush_of_parseStep ((parseStep_inFrame_etx hs).trans (parFinalize_invalid (validPayload_short hshort)))
  · have hvalid : validPayload s.parBuf =
        if msb.toNat * 256 + lsb.toNat = (computeCRC16 p).toNat then some p else none := by
      rw [hbuf, validPayload_append]
      simp only [← BitVec.toNat_inj, wordOfBytes_toNat]
    refine ⟨fun hcrc => ?_, fun hcrc => ?_⟩
    · rw [if_pos hcrc] at hvalid
      exact exec_parPush_of_parseStep ((parseStep_inFrame_etx hs).trans (parFinalize_valid hvalid))
    · rw [if_neg hcrc] at hvalid
      exact exec_parPush_of_parseStep ((parseStep_inFrame_etx hs).trans (parFinalize_invalid hvalid))

/-- Settles O46: the word is the encoder's, and the command reads no parser state. -/
theorem parResetForcesWaitStart : Obligations.ParResetForcesWaitStart := ⟨decode_encode .parReset, exec_parReset⟩

/-! ### What takes the parser out of a frame (R118) -/

/-- An append goes back to waiting only where a finite buffer is full. -/
theorem full_of_parAppend_waits {s : State} {v : Byte} (h : (parAppend s v).1.parState = .waitStart) :
    s.params.parBufMax = some s.parBuf.length := by
  by_contra hroom
  rw [parAppend_room hroom] at h
  cases h

/-- A byte takes the parser out of a frame as an ETX in `InFrame`, or as a byte to append to a full finite buffer. -/
theorem parseStep_leaves {s : State} {d : Byte} (hs : s.parState ≠ .waitStart)
    (ht : (parseStep s d).1.parState = .waitStart) :
    (d = etx ∧ s.parState = .inFrame) ∨
    (s.params.parBufMax = some s.parBuf.length ∧ (s.parState = .inEscape ∨ (d ≠ esc ∧ d ≠ etx))) := by
  cases hstate : s.parState with
  | waitStart => exact absurd hstate hs
  | inFrame =>
    by_cases hesc : d = esc
    · rw [hesc, parseStep_inFrame_esc hstate] at ht
      cases ht
    · by_cases hetx : d = etx
      · exact .inl ⟨hetx, rfl⟩
      · rw [parseStep_inFrame_data hstate hesc hetx] at ht
        exact .inr ⟨full_of_parAppend_waits ht, .inr ⟨hesc, hetx⟩⟩
  | inEscape =>
    rw [parseStep_inEscape hstate] at ht
    exact .inr ⟨full_of_parAppend_waits ht, .inl rfl⟩

/-- A command that takes the parser out of a frame is a `PAR_RESET`, or a `PAR_PUSH` whose byte does. -/
theorem exec_leaves {i : Instr} {s t : State} (h : exec i s = .next t) (hs : s.parState ≠ .waitStart)
    (ht : t.parState = .waitStart) : i = .parReset ∨ ∃ d, i = .parPush d ∧ (parseStep s d).1.parState = .waitStart := by
  by_cases hunit : i.unit = .parser
  · cases i with
    | parPush d =>
      cases h
      exact .inr ⟨d, rfl, ht⟩
    | parReset => exact .inl rfl
    | _ => cases hunit
  · have hsame : SameParser s t := (commandWritesOnlyItsUnit i s t h).2 .parser (Ne.symm hunit)
    exact absurd (hsame.1.symm.trans ht) hs

theorem nextElement_sameParser {s s' : State} {e : Element} (h : s.nextElement = .element e s') : SameParser s s' := by
  rw [nextElement_shape h]
  exact ⟨rfl, rfl⟩

/-- Settles O47: taking the element leaves the parser as it is, and of the commands only the parser's own write it. -/
theorem parserLeavesAFrameOnlySo : Obligations.ParserLeavesAFrameOnlySo := by
  intro s s' t e he hstep hs ht
  obtain ⟨hstate, hbuf⟩ := nextElement_sameParser he
  rw [step_of_nextElement he] at hstep
  rw [← hstate] at hs ⊢
  rw [← nextElement_params he, ← hbuf]
  cases e with
  | reset => exact .inl rfl
  | command k w =>
    obtain ⟨u, r, hu, -, rfl⟩ := apply_command.1 hstep
    rcases execWord_instr? (k := k) hu with ⟨i, hi, hexec⟩ | ⟨-, rfl⟩
    · rcases exec_leaves hexec hs ht with rfl | ⟨d, rfl, hd⟩
      · exact .inr (.inl hi)
      · rcases parseStep_leaves hs hd with ⟨rfl, hframe⟩ | ⟨hfull, hdata⟩
        · exact .inr (.inr (.inl ⟨hi, hframe⟩))
        · exact .inr (.inr (.inr ⟨hfull, d, hi, hdata⟩))
    · exact absurd ht hs

/-! ### A frame returns its payload (R122) -/

/-- Settles O48: the interleaved run answers as the bytes fed alone, and those return the payload. -/
theorem parserReturnsTheEncodedPayload : Obligations.ParserReturnsTheEncodedPayload := by
  intro p es s t hn hbytes hs hfit hrun
  obtain ⟨hresp, hstate, hbuf⟩ :=
    (commandRun_of_runOrder hn hrun).parser_feed hbytes rfl (sameUnit_refl .parser s)
  rw [parserFeed_encodeFrame hs p hfit] at hresp hstate hbuf
  exact ⟨hresp, hstate, hbuf⟩

/-! ### A run of pushes -/

/-- The elements by which one requester feeds the parser (R115). -/
def pushes (k : Requester) (bs : List Byte) : List Element := bs.map fun d => Element.ofInstr k (.parPush d)

theorem pushes_noReset (k : Requester) (bs : List Byte) : NoReset (pushes k bs) := by
  simp [NoReset, pushes, Element.ofInstr]

theorem unitInstrs_pushes (k : Requester) (bs : List Byte) :
    unitInstrs .parser (pushes k bs) = bs.map Instr.parPush := by
  induction bs with
  | nil => rfl
  | cons d bs ih =>
    exact (unitInstrs_cons_own (u := .parser) (instr?_ofInstr k (.parPush d)) rfl _).trans (congrArg _ ih)

theorem unitResponses_pushes (k : Requester) {bs : List Byte} {rs : List (Requester × Response)}
    (h : rs.length = (pushes k bs).length) : unitResponses .parser (pushes k bs) rs = rs.map Prod.snd := by
  induction bs generalizing rs with
  | nil =>
    obtain rfl : rs = [] := List.length_eq_zero_iff.1 h
    rfl
  | cons d bs ih =>
    cases rs with
    | nil => cases h
    | cons p rs =>
      exact (unitResponses_cons_own (u := .parser) (instr?_ofInstr k (.parPush d)) rfl ..).trans
        (congrArg _ (ih (Nat.succ.inj h)))

/-- A run of pushes answers, and leaves the parser, as the bytes fed to it alone. -/
theorem runOrder_pushes_feed {k : Requester} {bs : List Byte} {s t : State} (h : runOrder (pushes k bs) s = .next t) :
    (responsesSince s t).map Prod.snd = (parserFeed s bs).2 ∧ SameParser (parserFeed s bs).1 t := by
  have hrun := commandRun_of_runOrder (pushes_noReset k bs) h
  rw [← unitResponses_pushes k hrun.length_eq]
  exact hrun.parser_feed (unitInstrs_pushes k bs) rfl (sameUnit_refl .parser s)

/-- Feeding the parser never stops: every byte has its answer in every state (R124). -/
theorem runOrder_pushes_total (k : Requester) (bs : List Byte) (s : State) : ∃ t, runOrder (pushes k bs) s = .next t := by
  induction bs generalizing s with
  | nil => exact ⟨s, rfl⟩
  | cons d bs ih =>
    have hexec : s.execWord (encode (.parPush d)) = execParPush d s := execWord_command (decode_encode _) s
    obtain ⟨t, ht⟩ := ih _
    exact ⟨t, (runOrder_cons ..).2 ⟨_, apply_command.2 ⟨_, _, hexec, rfl, rfl⟩, ht⟩⟩

/-- Settles O50 (V-PAR-14a): the frame of `FF` with its CRC's LSB changed into an ETX begins with the frame of the empty payload. -/
theorem someCorruptionIsUndetected : Obligations.SomeCorruptionIsUndetected := by
  refine ⟨[0xFF], [], 3, by decide, by decide, by decide +kernel, fun s hs hmax => ?_⟩
  have hbytes : (encodeFrame [0xFF]).set 3 0x03 = encodeFrame [] ++ [etx] := by decide +kernel
  obtain ⟨t, ht⟩ := runOrder_pushes_total .consumer (encodeFrame [] ++ [etx]) s
  rw [hbytes]
  refine ⟨t, ht, ?_⟩
  rw [(runOrder_pushes_feed ht).1, parserFeed_append, parserFeed_encodeFrame hs [] (by simp [hmax]), List.append_assoc,
    deliveredPayloads_silent]
  exact List.mem_cons_self

/-! ### A frame with one byte changed (R123 (b)) -/

theorem parAppend_not_inEscape (s : State) (v : Byte) : (parAppend s v).1.parState ≠ .inEscape := by
  by_cases hfull : s.params.parBufMax = some s.parBuf.length
  · rw [parAppend_full hfull]
    nofun
  · rw [parAppend_room hfull]
    nofun

/-- The parser is between an ESC and its byte only after an ESC in `InFrame`. -/
theorem of_parseStep_inEscape {s : State} {b : Byte} (h : (parseStep s b).1.parState = .inEscape) :
    s.parState = .inFrame ∧ b = esc := by
  cases hs : s.parState with
  | waitStart =>
    by_cases hb : b = stx
    · rw [hb, parseStep_waitStart_stx hs] at h
      cases h
    · rw [parseStep_waitStart_other hs hb] at h
      exact absurd (hs.symm.trans h) nofun
  | inFrame =>
    by_cases hesc : b = esc
    · exact ⟨rfl, hesc⟩
    · by_cases hetx : b = etx
      · rw [hetx, parseStep_inFrame_etx hs, parFinalize_parState] at h
        cases h
      · rw [parseStep_inFrame_data hs hesc hetx] at h
        exact absurd h (parAppend_not_inEscape s b)
  | inEscape =>
    rw [parseStep_inEscape hs] at h
    exact absurd h (parAppend_not_inEscape s _)

/-- An ETX that no ESC has made data leaves the parser waiting. -/
theorem parseStep_etx_waits {s : State} (hs : s.parState ≠ .inEscape) : (parseStep s etx).1.parState = .waitStart := by
  cases hstate : s.parState with
  | waitStart => rw [parseStep_waitStart_other hstate (by decide), hstate]
  | inFrame => rw [parseStep_inFrame_etx hstate, parFinalize_parState]
  | inEscape => exact absurd hstate hs

theorem parserFeed_last_two (s : State) (bs : List Byte) (x y : Byte) :
    (parserFeed s (bs ++ [x, y])).1 = (parseStep (parseStep (parserFeed s bs).1 x).1 y).1 := by
  rw [parserFeed_append]
  rfl

/-- Whatever came before, a final ETX leaves the parser waiting unless the byte before it is an ESC read in `InFrame`. -/
theorem parserFeed_etx_waits {s : State} {bs : List Byte} {x : Byte}
    (h : x ≠ esc ∨ (parserFeed s bs).1.parState ≠ .inFrame) : (parserFeed s (bs ++ [x, etx])).1.parState = .waitStart := by
  rw [parserFeed_last_two]
  refine parseStep_etx_waits fun hesc => ?_
  obtain ⟨hframe, hx⟩ := of_parseStep_inEscape hesc
  rcases h with h | h
  · exact h hx
  · exact h hframe

/-- An ESC read in `InFrame` makes a following ETX data: the parser stays in the frame, if there is room. -/
theorem parserFeed_esc_etx {s : State} {bs : List Byte} (hframe : (parserFeed s bs).1.parState = .inFrame)
    (hroom : (parserFeed s bs).1.params.parBufMax ≠ some (parserFeed s bs).1.parBuf.length) :
    (parserFeed s (bs ++ [esc, etx])).1.parState = .inFrame := by
  rw [parserFeed_last_two, parseStep_inFrame_esc hframe, parseStep_inEscape (by rfl), parAppend_room (by exact hroom)]

/-- A byte is sent alone or after an ESC, and what ends it is no ESC (R90, R93). -/
theorem escape_cases (c : Byte) : ∃ z, z ≠ esc ∧ (escape c = [z] ∨ escape c = [esc, z]) := by
  cases hc : isReserved c with
  | true =>
    refine ⟨c ^^^ escXor, ?_, .inr (escape_reserved hc)⟩
    rcases (isReserved_iff c).1 hc with rfl | rfl | rfl <;> decide
  | false =>
    refine ⟨c, ?_, .inl (escape_plain hc)⟩
    rintro rfl
    cases hc

/-- The bytes of a frame before the CRC's LSB: STX, the escaped payload and the escaped MSB (R91). -/
def frameInit (p : List Byte) : List Byte := stx :: (p ++ [msbOf (computeCRC16 p)]).flatMap escape

theorem encodeFrame_eq_frameInit (p : List Byte) :
    encodeFrame p = frameInit p ++ (escape (lsbOf (computeCRC16 p)) ++ [etx]) := by
  simp [encodeFrame_eq, frameInit]

theorem getLast?_frameInit (p : List Byte) : (frameInit p).getLast? ≠ some esc := by
  obtain ⟨z, hz, h | h⟩ := escape_cases (msbOf (computeCRC16 p)) <;>
    simp [frameInit, h, hz, List.getLast?_cons, List.getLast?_append]

/-- The payload and the MSB are in the buffer when the LSB begins. -/
theorem parserFeed_frameInit {s : State} (hs : s.parState = .waitStart) {p : List Byte}
    (hfit : ∀ m, s.params.parBufMax = some m → p.length + 2 ≤ m) :
    (parserFeed s (frameInit p)).1 = { s with parBuf := p ++ [msbOf (computeCRC16 p)], parState := .inFrame } := by
  have hbody : ∀ m, s.params.parBufMax = some m → 0 + (p ++ [msbOf (computeCRC16 p)]).length ≤ m := by
    intro m hm
    have hle := hfit m hm
    rw [List.length_append, List.length_singleton]
    omega
  rw [frameInit, parserFeed, parseStep_waitStart_stx hs]
  exact congrArg Prod.fst (parserFeed_body (s := { s with parBuf := [], parState := .inFrame }) rfl _ hbody)

/-- A frame that fits leaves room for its LSB. -/
theorem frameInit_room {s : State} {p : List Byte} (hfit : ∀ m, s.params.parBufMax = some m → p.length + 2 ≤ m) :
    s.params.parBufMax ≠ some (p ++ [msbOf (computeCRC16 p)]).length := by
  intro hm
  have hle := hfit _ hm
  rw [List.length_append, List.length_singleton] at hle
  omega

/-- The bytes of a frame before the last two. After them the parser is between an ESC and its byte if the last of them is an ESC,
else it is in the frame with room for one byte more. -/
theorem exists_encodeFrame_eq (p : List Byte) :
    ∃ bs x, encodeFrame p = bs ++ [x, etx] ∧ x ≠ esc ∧
      ∀ {s : State}, s.parState = .waitStart → (∀ m, s.params.parBufMax = some m → p.length + 2 ≤ m) →
        (bs.getLast? = some esc ∧ (parserFeed s bs).1.parState = .inEscape) ∨
        (bs.getLast? ≠ some esc ∧ (parserFeed s bs).1.parState = .inFrame ∧
          (parserFeed s bs).1.params.parBufMax ≠ some (parserFeed s bs).1.parBuf.length) := by
  have hframe := encodeFrame_eq_frameInit p
  obtain ⟨z, hz, hlsb | hlsb⟩ := escape_cases (lsbOf (computeCRC16 p))
  · refine ⟨frameInit p, z, by rw [hframe, hlsb]; rfl, hz, fun hs hfit => .inr ⟨getLast?_frameInit p, ?_⟩⟩
    rw [parserFeed_frameInit hs hfit]
    exact ⟨rfl, frameInit_room hfit⟩
  · refine ⟨frameInit p ++ [esc], z, by rw [hframe, hlsb, List.append_assoc]; rfl, hz, fun hs hfit => .inl ?_⟩
    refine ⟨List.getLast?_concat, ?_⟩
    rw [parserFeed_append, parserFeed_frameInit hs hfit, parserFeed, parseStep_inFrame_esc (by rfl)]
    rfl

/-- Settles O49: a final ETX ends the frame unless the byte before it is an ESC read in `InFrame`. That byte of a frame is no ESC,
so it is the changed one, and the parser read it in `InFrame` exactly if no ESC came just before. -/
theorem oneCorruptionLeavesTheParserReady : Obligations.OneCorruptionLeavesTheParserReady := by
  intro p i b k s t hpos hi _ hs hfit hrun
  obtain ⟨bs, x, hframe, hx, hstate⟩ := exists_encodeFrame_eq p
  rw [(runOrder_pushes_feed hrun).2.1]
  rw [hframe, List.length_append] at hi ⊢
  rcases Nat.lt_or_eq_of_le (show i ≤ bs.length by simpa using hi) with hlt | rfl
  · rw [List.set_append_left _ _ hlt]
    refine ⟨fun ⟨hlast, _⟩ => ?_, fun _ => parserFeed_etx_waits (.inl hx)⟩
    exact absurd (Nat.add_right_cancel hlast) (Nat.ne_of_lt hlt)
  · have hbefore : (bs ++ [x, etx])[bs.length - 1]? = bs.getLast? := by
      rw [List.getElem?_append_left (Nat.sub_lt hpos Nat.one_pos), List.getLast?_eq_getElem?]
    have hset : (bs ++ [x, etx]).set bs.length b = bs ++ [b, etx] := by simp
    rw [hbefore, hset]
    rcases hstate hs hfit with ⟨hesc, hin⟩ | ⟨hne, hin, hroom⟩
    · refine ⟨fun ⟨_, _, h⟩ => absurd hesc h, fun _ => parserFeed_etx_waits (.inr ?_)⟩
      rw [hin]
      nofun
    · refine ⟨fun ⟨_, hb, _⟩ => ?_, fun h => parserFeed_etx_waits (.inl fun hb => h ⟨rfl, hb, hne⟩)⟩
      subst hb
      exact parserFeed_esc_etx hin hroom

end Sys2Proof.Machine
end

section
/-! Proofs of the family 43_fifo: the commands of the FIFO unit, the queue and its capacity over runs, and the one cell a command
touches (spec/43_fifo.md). -/

namespace Sys2Proof.Machine

/-! ### The commands of the FIFO unit (R131 to R136, R140) -/

/-- Settles O51: what a push with room and a push on a full FIFO do, with the advance written without `mod`. -/
theorem fifoPushStoresAtTheHead : Obligations.FifoPushStoresAtTheHead := by
  refine ⟨fun d => decode_encode (.fifoPush d), fun d s hroom hhead => ?_, fun d s hfull => execFifoPush_full hfull d⟩
  exact ⟨_, execFifoPush_room hroom hhead d, Memory.read?_write_self _ _ _, fun i hi => Memory.read?_write_other _ _ hi,
    advance_eq hhead, rfl, rfl, rfl, rfl, ⟨rfl, rfl⟩, ⟨rfl, rfl⟩, rfl, rfl, rfl, rfl, rfl, rfl⟩

/-- Settles O52: what a pop of a held byte and a pop on an empty FIFO do, with the advance written without `mod`. -/
theorem fifoPopReadsAtTheTail : Obligations.FifoPopReadsAtTheTail := by
  refine ⟨decode_encode .fifoPop, fun s hheld htail => ?_, fun s b hb => cell_of_read? hb,
    fun s hempty => execFifoPop_empty hempty⟩
  rw [← advance_eq htail]
  exact execFifoPop_held hheld htail

theorem valueOfBool_fifoIsEmpty (s : State) : valueOfBool s.fifoIsEmpty = if s.fifoCount = 0 then 1 else 0 := by
  simp [valueOfBool, fifoIsEmpty_iff]

theorem valueOfBool_fifoIsFull (s : State) :
    valueOfBool s.fifoIsFull = if s.fifoCount = s.params.fifoN then 1 else 0 := by
  simp [valueOfBool, fifoIsFull_iff]

theorem Params.fifoN_le {p : Params} (h : p.wellFormed = true) : p.fifoN ≤ 65535 := by
  simp only [Params.wellFormed, Bool.and_eq_true, decide_eq_true_eq] at h
  exact h.1.2

/-- A number no greater than a legal capacity is returned whole (R6). -/
theorem valueOfNat_toNat {p : Params} (h : p.wellFormed = true) {n : Nat} (hn : n ≤ p.fifoN) : (valueOfNat n).toNat = n := by
  have hmax := Params.fifoN_le h
  rw [valueOfNat, BitVec.toNat_ofNat, Nat.mod_eq_of_lt (by omega)]

/-- Settles O53: the observers return functions of the count and the capacity, which 16 bits hold, and no step changes the
parameters. -/
theorem fifoObserversOnlyRead : Obligations.FifoObserversOnlyRead := by
  refine ⟨⟨decode_encode .fifoEmpty, decode_encode .fifoFull, decode_encode .fifoSize, decode_encode .fifoCapacity⟩,
    fun s => ?_, fun s => ?_, fun s => ?_, fun s => ?_, fun s t h => ?_⟩
  · rw [← valueOfBool_fifoIsEmpty]
    rfl
  · rw [← valueOfBool_fifoIsFull]
    rfl
  · exact ⟨valueOfNat s.fifoCount, rfl, fun h => valueOfNat_toNat h.params_legal h.count_le⟩
  · exact ⟨valueOfNat s.params.fifoN, rfl, fun h => valueOfNat_toNat h (Nat.le_refl _)⟩
  · rw [noStepChangesTheParameters s t h]

/-- The oldest byte held is in a cell that a push wrote. -/
theorem State.Inv.tail_written {s : State} (h : s.Inv) (hheld : s.fifoCount ≠ 0) :
    ∃ b, s.fifoMem.read? s.fifoTail = some b := by
  have hwritten := h.held_written 0 (Nat.pos_of_ne_zero hheld)
  rw [Nat.add_zero, Nat.mod_eq_of_lt h.tail_lt] at hwritten
  exact Option.isSome_iff_exists.1 hwritten

/-- Settles O55: the tail is the first of the cells that hold the FIFO's bytes. -/
theorem popReturnsAWrittenByte : Obligations.PopReturnsAWrittenByte := by
  intro s h hheld
  obtain ⟨b, hb⟩ := h.tail_written hheld
  refine ⟨b, _, hb, execFifoPop_held hheld h.tail_lt, ?_⟩
  rw [cell_of_read? hb]
  rfl

/-! ### The queue (R137) -/

/-- Settles O56: the contents after a push, after a pop, and after any other command. -/
theorem fifoHoldsAQueue : Obligations.FifoHoldsAQueue :=
  ⟨fun _ _ _ h hroom ht => execFifoPush_contents h hroom ht, fun _ _ h hheld ht => execFifoPop_contents h hheld ht,
    fun _ _ _ ht hpush hpop => exec_contents_of_other ht hpush hpop⟩

/-- Settles O57: the reset-free order runs as commands, each of which keeps the balance of `CommandRun.fifo_order`. -/
theorem popsComeInTheOrderOfPushes : Obligations.PopsComeInTheOrderOfPushes :=
  fun _ _ _ hinv hn ht => (commandRun_of_runOrder hn ht).fifo_order hinv

/-! ### The capacity (R138) -/

/-- The elements by which one requester pushes bytes into the FIFO. -/
def fifoPushes (k : Requester) (ds : List Byte) : List Element := ds.map fun d => Element.ofInstr k (.fifoPush d)

theorem fifoPushes_noReset (k : Requester) (ds : List Byte) : NoReset (fifoPushes k ds) := by
  simp [NoReset, fifoPushes, Element.ofInstr]

/-- With room for `m` bytes, the first `m` of any pushes in a row succeed and the rest overflow. -/
theorem CommandRun.fifoPushes_answers {ds : List Byte} {k : Requester} {s t : State} {rs : List (Requester × Response)}
    (h : CommandRun s (fifoPushes k ds) rs t) {m : Nat} (hm : s.fifoCount + m = s.params.fifoN) :
    rs = List.replicate (min ds.length m) (k, ⟨.ok, 0, []⟩) ++
      List.replicate (ds.length - m) (k, ⟨.overflow, 0, []⟩) := by
  induction ds generalizing s rs m with
  | nil =>
    cases h
    simp
  | cons d ds ih =>
    obtain ⟨u, r, rs', hu, hr, rfl, hrest⟩ := h.cons_ofInstr
    rcases execFifoPush_cases hu with ⟨hfull, rfl⟩ | ⟨hroom, -, rfl⟩
    · obtain rfl : m = 0 := by omega
      cases hr
      rw [ih hrest hm]
      simp [List.replicate_succ]
    · obtain ⟨m, rfl⟩ := Nat.exists_eq_succ_of_ne_zero (show m ≠ 0 by omega)
      cases hr
      rw [ih (m := m) hrest (show s.fifoCount + 1 + m = s.params.fifoN by omega)]
      simp [List.replicate_succ]

/-- Pushes that all find room append their bytes to what is held and pop nothing. -/
theorem CommandRun.fifoPushes_contents {ds : List Byte} {k : Requester} {es : List Element} {s t : State}
    {rs : List (Requester × Response)} (h : CommandRun s (fifoPushes k ds ++ es) rs t) (hinv : s.Inv)
    (hroom : s.fifoCount + ds.length ≤ s.params.fifoN) :
    ∃ u rs', CommandRun u es rs' t ∧ u.Inv ∧ u.fifoContents = s.fifoContents ++ ds ∧
      poppedBytes (fifoPushes k ds ++ es) rs = poppedBytes es rs' := by
  induction ds generalizing s rs with
  | nil => exact ⟨s, rs, h, hinv, (List.append_nil _).symm, rfl⟩
  | cons d ds ih =>
    obtain ⟨v, r, rs₁, hv, hr, rfl, hrest⟩ := h.cons_ofInstr
    rw [List.length_cons] at hroom
    have hfree : s.fifoCount ≠ s.params.fifoN := by omega
    have hvroom : v.fifoCount + ds.length ≤ v.params.fifoN := by
      cases (execFifoPush_room hfree hinv.head_lt d).symm.trans hv
      change s.fifoCount + 1 + ds.length ≤ s.params.fifoN
      omega
    obtain ⟨u, rs', hrun, huinv, hcontents, hpopped⟩ := ih hrest ((exec_inv hinv hv).with_others ..) hvroom
    refine ⟨u, rs', hrun, huinv, ?_, ?_⟩
    · rw [hcontents, List.append_cons s.fifoContents, ← execFifoPush_contents hinv hfree hv]
      rfl
    · rw [← hpopped]
      exact poppedBytes_cons_other (by simp [instr?_ofInstr]) _ _ _

theorem length_fifoContents (s : State) : s.fifoContents.length = s.fifoCount := by
  simp [State.fifoContents]

/-- As many pops as bytes are held return them in order and leave the FIFO empty. -/
theorem CommandRun.fifoPops_contents {ds : List Byte} {k : Requester} {s t : State} {rs : List (Requester × Response)}
    (h : CommandRun s (List.replicate ds.length (Element.ofInstr k .fifoPop)) rs t) (hinv : s.Inv)
    (hheld : s.fifoContents = ds) :
    poppedBytes (List.replicate ds.length (Element.ofInstr k .fifoPop)) rs = ds ∧ t.fifoCount = 0 := by
  induction ds generalizing s rs with
  | nil =>
    cases h
    exact ⟨rfl, by rw [← length_fifoContents, hheld, List.length_nil]⟩
  | cons d ds ih =>
    obtain ⟨u, r, rs', hu, hr, rfl, hrest⟩ := h.cons_ofInstr
    have hcount : s.fifoCount ≠ 0 := by
      rw [← length_fifoContents, hheld]
      exact Nat.succ_ne_zero _
    obtain ⟨b, hb, hrsp⟩ := execFifoPop_contents hinv hcount hu
    obtain ⟨rfl, hrestheld⟩ := List.cons.inj (hheld.symm.trans hb)
    obtain ⟨hpopped, hend⟩ := ih hrest ((exec_inv hinv hu).with_others ..) hrestheld.symm
    cases hrsp.symm.trans hr
    refine ⟨?_, hend⟩
    rw [List.length_cons, List.replicate_succ, poppedBytes_cons_pop (instr?_ofInstr k .fifoPop), hpopped, lsbOf_zext16]
    rfl

/-- Settles O58: the answers to pushes count the room left, and pushes that find room and then as many pops fill and empty the
queue. -/
theorem capacityBoundsThePushes : Obligations.CapacityBoundsThePushes := by
  refine ⟨fun ds k s t hinv ht => ?_, fun ds k k' s t hinv hempty hfit ht => ?_, fun s hempty => execFifoPop_empty hempty⟩
  · exact (commandRun_of_runOrder (fifoPushes_noReset k ds) ht).fifoPushes_answers
      (Nat.add_sub_cancel' hinv.count_le)
  · have hn : NoReset (fifoPushes k ds ++ List.replicate ds.length (Element.ofInstr k' .fifoPop)) := by
      simp [NoReset, fifoPushes, Element.ofInstr]
    obtain ⟨u, rs', hrun, huinv, hheld, hpopped⟩ :=
      (commandRun_of_runOrder hn ht).fifoPushes_contents hinv (by rwa [hempty, Nat.zero_add])
    rw [fifoContents_eq_nil hempty, List.nil_append] at hheld
    obtain ⟨hbytes, hend⟩ := hrun.fifoPops_contents huinv hheld
    exact ⟨hpopped.trans hbytes, hend⟩

/-! ### The one cell a command touches (R141) -/

theorem touchedCell_eq_some_iff (i : Instr) (s : State) (j : Nat) :
    s.touchedCell i = some j ↔
      ((∃ d, i = .fifoPush d) ∧ s.fifoCount ≠ s.params.fifoN ∧ j = s.fifoHead) ∨
      (i = .fifoPop ∧ s.fifoCount ≠ 0 ∧ j = s.fifoTail) := by
  constructor
  · intro h
    rcases touchedCell_cases h with ⟨hi, hroom, rfl⟩ | ⟨hi, hheld, rfl⟩
    · exact .inl ⟨hi, hroom, rfl⟩
    · exact .inr ⟨hi, hheld, rfl⟩
  · rintro (⟨⟨d, rfl⟩, hroom, rfl⟩ | ⟨rfl, hheld, rfl⟩)
    · exact touchedCell_push.2 ⟨hroom, rfl⟩
    · exact touchedCell_pop.2 ⟨hheld, rfl⟩

/-- The cell that a command touches and goes on is a cell of the storage. -/
theorem touchedCell_lt {i : Instr} {s t : State} (h : exec i s = .next t) {j : Nat} (hj : s.touchedCell i = some j) :
    j < s.params.fifoN := by
  rcases touchedCell_cases hj with ⟨⟨d, rfl⟩, hroom, rfl⟩ | ⟨rfl, hheld, rfl⟩
  · rcases execFifoPush_cases h with ⟨hfull, -⟩ | ⟨-, hlt, -⟩
    · exact absurd hfull hroom
    · exact hlt
  · rcases execFifoPop_cases h with ⟨hempty, -⟩ | ⟨-, hlt, -⟩
    · exact absurd hempty hheld
    · exact hlt

/-- A command changes no cell but the one it touches. -/
theorem exec_read?_of_untouched {i : Instr} {s t : State} (h : exec i s = .next t) {j : Nat}
    (hj : s.touchedCell i ≠ some j) : t.fifoMem.read? j = s.fifoMem.read? j := by
  cases i with
  | fifoPush d =>
    rcases execFifoPush_cases h with ⟨-, rfl⟩ | ⟨hroom, -, rfl⟩
    · rfl
    · exact Memory.read?_write_other _ _ fun he => hj (touchedCell_push.2 ⟨hroom, he.symm⟩)
  | fifoPop => rcases execFifoPop_cases h with ⟨-, rfl⟩ | ⟨-, -, rfl⟩ <;> rfl
  | fifoEmpty | fifoFull | fifoSize | fifoCapacity =>
    cases h
    rfl
  | crcInit | crcUpdate d | crcRead | encStart | encData d | encEnd | parPush d | parReset =>
    obtain ⟨-, -, -, hmem⟩ := (commandWritesOnlyItsUnit _ s t h).2 .fifo nofun
    exact hmem j

theorem withUnitOf_congr {v : BlockUnit} (hv : v ≠ .fifo) {t u : State} (h : SameUnit v t u) (s : State) :
    s.withUnitOf v u = s.withUnitOf v t := by
  cases v with
  | crc =>
    have hreg : u.crcReg = t.crcReg := h
    simp only [State.withUnitOf, hreg]
  | encoder =>
    obtain ⟨hactive, hcrc⟩ := h
    simp only [State.withUnitOf, hactive, hcrc]
  | parser =>
    obtain ⟨hstate, hbuf⟩ := h
    simp only [State.withUnitOf, hstate, hbuf]
  | fifo => exact absurd rfl hv

/-- The FIFO's storage is in no other unit. -/
theorem withUnitOf_fifoMem {v : BlockUnit} (hv : v ≠ .fifo) (s t : State) (m : Memory) :
    State.withUnitOf v { s with fifoMem := m } t = { s.withUnitOf v t with fifoMem := m } := by
  cases v with
  | fifo => exact absurd rfl hv
  | _ => rfl

/-- A command of another unit does the same on any storage, and keeps it. -/
theorem exec_fifoMem_of_other_unit {i : Instr} {s t : State} (hi : i.unit ≠ .fifo) (h : exec i s = .next t) (m : Memory) :
    exec i { s with fifoMem := m } = .next { t with fifoMem := m } := by
  have hsame : SameUnit i.unit s { s with fifoMem := m } := by
    cases hv : i.unit with
    | fifo => exact absurd hv hi
    | crc => exact sameUnit_refl .crc s
    | encoder => exact sameUnit_refl .encoder s
    | parser => exact sameUnit_refl .parser s
  obtain ⟨u, hexec, hrsp, hunit⟩ := commandReadsOnlyItsUnit i s { s with fifoMem := m } t rfl rfl hsame h
  obtain ⟨r, ht⟩ := exec_eq_withUnitOf h
  obtain ⟨r', hu⟩ := exec_eq_withUnitOf hexec
  have hr : some r' = some r := by
    rw [ht, hu] at hrsp
    exact hrsp
  rw [withUnitOf_congr hi hunit, withUnitOf_fifoMem hi, hr] at hu
  rw [hexec, hu]
  exact congrArg (fun v : State => Host.Outcome.next { v with fifoMem := m }) ht.symm

/-- On any storage that agrees on the cell it touches, a command does the same but to the storage, and leaves the same byte in
that cell. -/
theorem exec_of_storage_agrees {i : Instr} {s t : State} (h : exec i s = .next t) {m : Memory}
    (hm : ∀ j, s.touchedCell i = some j → m.read? j = s.fifoMem.read? j) :
    ∃ m' : Memory, exec i { s with fifoMem := m } = .next { t with fifoMem := m' } ∧
      ∀ j, s.touchedCell i = some j → m'.read? j = t.fifoMem.read? j := by
  cases i with
  | fifoPush d =>
    rcases execFifoPush_cases h with ⟨hfull, rfl⟩ | ⟨hroom, hhead, rfl⟩
    · exact ⟨m, execFifoPush_full (s := { s with fifoMem := m }) hfull d, hm⟩
    · refine ⟨m.write s.fifoHead d, execFifoPush_room (s := { s with fifoMem := m }) hroom hhead d, fun j hj => ?_⟩
      obtain ⟨-, rfl⟩ := touchedCell_push.1 hj
      rw [Memory.read?_write_self, Memory.read?_write_self]
  | fifoPop =>
    rcases execFifoPop_cases h with ⟨hempty, rfl⟩ | ⟨hheld, htail, rfl⟩
    · exact ⟨m, execFifoPop_empty (s := { s with fifoMem := m }) hempty, hm⟩
    · refine ⟨m, ?_, hm⟩
      have hcell : State.cell { s with fifoMem := m } s.fifoTail = s.cell s.fifoTail :=
        cell_congr (s₁ := s) (s₂ := { s with fifoMem := m }) rfl (hm _ (touchedCell_pop.2 ⟨hheld, rfl⟩))
      rw [← hcell]
      exact execFifoPop_held (s := { s with fifoMem := m }) hheld htail
  | fifoEmpty | fifoFull | fifoSize | fifoCapacity =>
    cases h
    exact ⟨m, rfl, hm⟩
  | crcInit | crcUpdate d | crcRead | encStart | encData d | encEnd | parPush d | parReset =>
    exact ⟨m, exec_fifoMem_of_other_unit (by nofun) h m, fun _ hj => by cases hj⟩

/-- The storage lists no more cells than the FIFO has. -/
theorem State.Inv.length_fifoMem_le {s : State} (h : s.Inv) : s.fifoMem.length ≤ s.params.fifoN :=
  Memory.length_le_of_risingFrom h.mem_wf h.cells_exist

/-- Settles O60: the cell touched, what becomes of the others and of the command when they differ, and the bound that the
invariants put on the storage. -/
theorem commandTouchesAtMostOneCell : Obligations.CommandTouchesAtMostOneCell := by
  refine ⟨touchedCell_eq_some_iff, fun i s t h =>
    ⟨fun j hj => touchedCell_lt h hj, fun j hj => exec_read?_of_untouched h hj, fun m hm => ?_, exec_params h,
      fun hinv => ?_⟩⟩
  · obtain ⟨m', hexec, hcell⟩ := exec_of_storage_agrees h hm
    exact ⟨_, hexec, rfl, hcell⟩
  · rw [← exec_params h]
    exact (exec_inv hinv h).length_fifoMem_le

end Sys2Proof.Machine
end

section
/-! Proofs of the family 60_exceptions: what an error response says, and when it is returned (spec/60_exceptions.md). -/

namespace Sys2Proof.Machine

/-! ### The causes of the errors, word by word (R156, R158) -/

/-- When a word reports an error: a command by its cause in R156, a word that is no command always by `ILLEGAL`. -/
def Error.CausedByWord (w : Word) (s : State) (e : Error) : Prop :=
  (∃ i, decode w = .command i ∧ e.CausedBy i s) ∨ (e = .illegal ∧ ∃ why, decode w = .illegal why)

theorem illegal_causedByWord {w : Word} {s : State} :
    Error.CausedByWord w s .illegal ↔ ∃ why, decode w = .illegal why := by
  simp [Error.CausedByWord, Error.CausedBy]

theorem overflow_causedByWord {w : Word} {s : State} :
    Error.CausedByWord w s .overflow ↔ (∃ d, decode w = .command (.fifoPush d)) ∧ s.fifoCount = s.params.fifoN := by
  simp [Error.CausedByWord, Error.CausedBy]

theorem underflow_causedByWord {w : Word} {s : State} :
    Error.CausedByWord w s .underflow ↔ decode w = .command .fifoPop ∧ s.fifoCount = 0 := by
  simp [Error.CausedByWord, Error.CausedBy]

theorem seqErr_causedByWord {w : Word} {s : State} :
    Error.CausedByWord w s .seqErr ↔ (decode w = .command .encStart ∧ s.encActive = true) ∨
      (((∃ d, decode w = .command (.encData d)) ∨ decode w = .command .encEnd) ∧ s.encActive = false) := by
  simp [Error.CausedByWord, Error.CausedBy, and_or_left, or_and_right, exists_or]

/-! ### An error is raised exactly on its cause (R156, R157) -/

theorem Error.status_isError (e : Error) : e.status.isError = true := by
  cases e <;> rfl

theorem Error.status_injective : Function.Injective Error.status := by
  intro e e' h
  cases e <;> cases e' <;> cases h <;> rfl

/-- A word that has the cause of an error raises it. -/
theorem execWord_of_causedByWord {w : Word} {s : State} {e : Error} (h : e.CausedByWord w s) : s.execWord w = s.raise e := by
  rcases h with ⟨i, hd, hc⟩ | ⟨rfl, why, hd⟩
  · exact (execWord_command hd s).trans (exec_of_causedBy hc)
  · exact execWord_illegal hd s

/-- Only a cause of R156 or R158 makes a word return an error. -/
theorem causedByWord_of_isError {w : Word} {s t : State} {r : Response} (h : s.execWord w = .next t) (hr : t.rsp = some r)
    (he : r.status.isError = true) : ∃ e : Error, e.CausedByWord w s := by
  rcases execWord_cases h with ⟨i, hd, hi⟩ | ⟨why, hd, -⟩
  · obtain ⟨e, hc⟩ := causedBy_of_isError hi hr he
    exact ⟨e, .inl ⟨i, hd, hc⟩⟩
  · exact ⟨.illegal, .inr ⟨rfl, why, hd⟩⟩

/-- A word that returned with the cause of an error left that error's response and nothing else. -/
theorem eq_of_causedByWord {w : Word} {s t : State} {r : Response} {e : Error} (hc : e.CausedByWord w s)
    (h : s.execWord w = .next t) (hr : t.rsp = some r) : r = ⟨e.status, 0, []⟩ ∧ t = { s with rsp := some r } := by
  cases (execWord_of_causedByWord hc).symm.trans h
  cases hr
  exact ⟨rfl, rfl⟩

/-- The status of an error is returned exactly on the error's cause: a status is that of one error only. -/
theorem status_eq_iff_causedByWord {w : Word} {s t : State} {r : Response} (h : s.execWord w = .next t)
    (hr : t.rsp = some r) (e : Error) : r.status = e.status ↔ e.CausedByWord w s := by
  constructor
  · intro hs
    obtain ⟨e', hc⟩ := causedByWord_of_isError h hr (hs ▸ e.status_isError)
    obtain ⟨rfl, -⟩ := eq_of_causedByWord hc h hr
    exact Error.status_injective hs ▸ hc
  · intro hc
    obtain ⟨rfl, -⟩ := eq_of_causedByWord hc h hr
    rfl

/-- Settles O21: an error response has a cause, and on its cause the word does no more than raise the error. -/
theorem errorsWriteNothing : Obligations.ErrorsWriteNothing := by
  intro w s t r h hr he
  obtain ⟨e, hc⟩ := causedByWord_of_isError h hr he
  obtain ⟨rfl, ht⟩ := eq_of_causedByWord hc h hr
  exact ⟨rfl, rfl, ht⟩

/-- Settles O22: each status is returned on its error's cause, which is spelled out for each of the four errors. -/
theorem errorsHaveTheirCauses : Obligations.ErrorsHaveTheirCauses := by
  refine ⟨⟨rfl, rfl, rfl, rfl⟩, fun w s t r h hr => ?_⟩
  have hstatus := status_eq_iff_causedByWord h hr
  exact ⟨(hstatus .illegal).trans illegal_causedByWord, (hstatus .overflow).trans overflow_causedByWord,
    (hstatus .underflow).trans underflow_causedByWord, (hstatus .seqErr).trans seqErr_causedByWord⟩

end Sys2Proof.Machine
end

section
/-! Proofs of the family 70_reset_and_hazards: what a reset leaves, where a step stops, and that no sequence stops before its end
(spec/70_reset_and_hazards.md R175, R176, R188, R189). -/

namespace Sys2Proof.Machine

/-! ### A reset (R37, R175, R176) -/

/-- A reset is taken with its turn used up and the outstanding commands dropped that it is said to discard. -/
theorem nextElement_reset {s : State} {lost0 lost1 : Bool} {ts : List Turn} (ht : s.turns = .reset lost0 lost1 :: ts) :
    s.nextElement = .element .reset (s.withRequests (if lost0 then s.req0.tail else s.req0)
      (if lost1 then s.req1.tail else s.req1) ts) := by
  simp only [State.nextElement, ht]
  cases lost0 <;> cases lost1 <;> rfl

/-- Settles O9: the reset turn is next with the discarded commands dropped, and the fields of `State.blockReset` are those listed;
no cell of its empty storage was written. -/
theorem resetSetsEveryField : Obligations.ResetSetsEveryField := by
  intro s lost0 lost1 ts ht
  refine ⟨_, (step_of_nextElement (nextElement_reset ht)).trans (apply_reset _), ?_⟩
  exact ⟨blockReset_crcReg _, blockReset_encActive _, blockReset_encCrc _, blockReset_parState _, blockReset_parBuf _,
    blockReset_fifoHead _, blockReset_fifoTail _, blockReset_fifoCount _, fun i => cell_of_unwritten (Memory.read?_nil i),
    blockReset_params _, blockReset_turns _, blockReset_rsp _, blockReset_responses _, blockReset_req0 _, blockReset_req1 _⟩

/-! ### Where a step stops (R188) -/

/-- The order has nothing to execute exactly where no turn is left or the requester it names has no command outstanding. -/
theorem nextElement_stuck_iff {s : State} {why : Fault} :
    s.nextElement = .stuck why ↔
      (s.turns = [] ∧ why = .orderExhausted) ∨
      ((∃ k ts, s.turns = .serve k :: ts ∧ s.queue k = []) ∧ why = .requesterSilent) := by
  match ht : s.turns with
  | [] => simp [State.nextElement, ht, @eq_comm _ why]
  | .reset lost0 lost1 :: ts => simp [nextElement_reset ht]
  | .serve k :: ts =>
    match hq : s.queue k with
    | [] => simp [State.nextElement, ht, hq, @eq_comm _ why]
    | w :: ws => simp [nextElement_serve ht hq, hq]

/-- In a state that meets the invariants every element of the order gives a next state. -/
theorem apply_total {s : State} (h : s.Inv) (e : Element) : ∃ t, s.apply e = .next t := by
  cases e with
  | reset => exact ⟨_, apply_reset s⟩
  | command k w =>
    obtain ⟨u, hu⟩ := execWord_total h w
    obtain ⟨r, hr⟩ := execWord_rsp hu
    exact ⟨_, apply_command.2 ⟨u, r, hu, hr, rfl⟩⟩

theorem step_of_stuck {s : State} {why : Fault} (h : s.nextElement = .stuck why) : step s = .fault why := by
  simp [step, h]

/-- Under the invariants a step faults only for want of an element: an element it takes is executed. -/
theorem nextElement_of_step_fault {s : State} (h : s.Inv) {f : Fault} (hf : step s = .fault f) :
    s.nextElement = .stuck f := by
  cases hn : s.nextElement with
  | element e s' =>
    obtain ⟨t, ht⟩ := apply_total (nextElement_inv h hn) e
    rw [step_of_nextElement hn, ht] at hf
    cases hf
  | stuck why =>
    rw [step_of_stuck hn] at hf
    cases hf
    rfl

/-- Settles O11: the two stops are those of the order, and under the invariants there is no other. -/
theorem stuckOnlyWithoutACommand : Obligations.StuckOnlyWithoutACommand := by
  refine ⟨fun s ht => step_of_stuck (nextElement_stuck_iff.2 (.inl ⟨ht, rfl⟩)),
    fun s k ts ht hq => step_of_stuck (nextElement_stuck_iff.2 (.inr ⟨⟨k, ts, ht, hq⟩, rfl⟩)), fun s f h hf => ?_⟩
  rcases nextElement_stuck_iff.1 (nextElement_of_step_fault h hf) with ⟨ht, -⟩ | ⟨hsilent, -⟩
  · exact .inl ht
  · exact .inr hsilent

/-! ### No sequence stops before its end (R188, R189) -/

/-- Settles O15, by induction on the sequence: its first element gives a next state, which meets the invariants again. -/
theorem everyOrderRunsToItsEnd : Obligations.EveryOrderRunsToItsEnd := by
  intro es
  induction es with
  | nil => exact fun s h => ⟨s, runOrder_nil s, h⟩
  | cons e es ih =>
    intro s h
    obtain ⟨u, hu⟩ := apply_total h e
    obtain ⟨t, ht, hinv⟩ := ih u (apply_inv h hu)
    exact ⟨t, (runOrder_cons e es s t).2 ⟨u, hu, ht⟩, hinv⟩

end Sys2Proof.Machine
end
